-- ==== Sys2Proof/Word.lean ====
section
/-! DEFINITION. The one word type of the core: an unsigned byte (spec/00_scope.md R8, R6 CELL_WIDTH and REG_WIDTH).
There is no wider word and no signed value anywhere in the core. -/

namespace Sys2Proof

/-- An 8-bit unsigned value, `u8` of R8: a memory cell, a register, an opcode or an operand. -/
abbrev Byte := BitVec 8

end Sys2Proof
end

