-- ==== Sys2Proof/Config.lean ====
section
/-! DEFINITION. The parameters of spec/00_scope.md R6: the fixed sizes, and the three that a core's builder chooses
(OPC, ERR_CODE, PRN_LINE_END). The spec's default values stand in Decode.lean. The core has no free value:
spec/93_implementation_defined.md, 'No behaviour of the core is "any value"'. -/

namespace Sys2Proof

/-- MEM_SIZE of R6: the cells of `MEM`, addresses 0 to 255 (R20). -/
abbrev memSize : Nat := 256

/-- NREG of R6: the registers r0 to r7 (R21). -/
abbrev numRegs : Nat := 8

/-- SP_INDEX of R6: the register that holds the stack pointer (R23). -/
abbrev spIndex : Nat := 7

/-- The parameter OPC: the opcode byte of each of the nine instructions (R7, R62). -/
structure Opcodes where
  hlt  : Byte
  ldi  : Byte
  prn  : Byte
  add  : Byte
  mul  : Byte
  push : Byte
  pop  : Byte
  call : Byte
  ret  : Byte
  deriving DecidableEq, Repr

/-- The nine bytes of OPC in the order of R2's instruction list. -/
def Opcodes.toList (opc : Opcodes) : List Byte :=
  [opc.hlt, opc.ldi, opc.prn, opc.add, opc.mul, opc.push, opc.pop, opc.call, opc.ret]

/-- The parameter ERR_CODE: the numbers a host interface gives the error status and the load error (R186). -/
structure ErrCodes where
  noError              : Nat
  invalidOpcode        : Nat
  unsupportedOperation : Nat
  addressOutOfRange    : Nat
  programTooLarge      : Nat
  deriving DecidableEq, Repr

/-- The three parameters of R6 together. `prnLineEnd` is PRN_LINE_END, the bytes that end a line of PRN's text (R103). -/
structure Config where
  opc        : Opcodes
  errCodes   : ErrCodes
  prnLineEnd : List Byte
  deriving DecidableEq, Repr

end Sys2Proof
end

