-- ==== Sys2Proof/Syntax.lean ====
section
/-! DEFINITION. The instructions of the core as terms: one constructor per row of spec/opcode_table.json (R2, R61),
with the types that name its parts. Operands are the whole operand bytes as fetched (R60, R64, R65). -/

namespace Sys2Proof

/-- The nine instructions of R2, without operands. -/
inductive Mnemonic where
  | hlt | ldi | prn | add | mul | push | pop | call | ret
  deriving DecidableEq, Repr

/-- The four formats of R61. -/
inductive Format where
  /-- The opcode byte alone. -/
  | f0
  /-- Opcode, register index. -/
  | f1r
  /-- Opcode, register index (source and destination), register index (source). -/
  | f2rr
  /-- Opcode, register index (destination), immediate. -/
  | f2ri
  deriving DecidableEq, Repr

/-- An instruction. `a` is `operand_a` and `b` is `operand_b` (R80). A register field may hold any byte: 8 to 255 name
no register, which is found at execute and not at decode (R64). -/
inductive Instr where
  /-- R100: halt. -/
  | hlt
  /-- R101: load the immediate `b` into register `a`. -/
  | ldi (a b : Byte)
  /-- R102: print register `a`. -/
  | prn (a : Byte)
  /-- R124: add register `b` to register `a`. -/
  | add (a b : Byte)
  /-- R125: multiply register `a` by register `b`. -/
  | mul (a b : Byte)
  /-- R142: push register `a`. -/
  | push (a : Byte)
  /-- R143: pop into register `a`. -/
  | pop (a : Byte)
  /-- R160: call the subroutine whose address is in register `a`. -/
  | call (a : Byte)
  /-- R161: return from a subroutine. -/
  | ret
  deriving DecidableEq, Repr

/-- The arithmetic unit's closed enumeration of operations (R121). -/
inductive AluOp where
  | add | mul
  deriving DecidableEq, Repr

/-- The three bytes every fetch reads, whatever the instruction turns out to be (R80). They are latched for one step
and are no part of the state (R31, R53). -/
structure FetchWindow where
  opcode : Byte
  a      : Byte
  b      : Byte
  deriving DecidableEq, Repr

/-- Why decode gives no instruction. -/
inductive DecodeReject where
  /-- The opcode byte equals no value of OPC (R66, R82). -/
  | invalidOpcode (opcode : Byte)
  deriving DecidableEq, Repr

/-- A line of the spec's example assembler syntax: an instruction, or `.byte v` (R68). -/
inductive AsmLine where
  | instr (i : Instr)
  | byte (v : Byte)
  deriving DecidableEq, Repr

end Sys2Proof
end

