-- ==== Sys2Proof/WellFormed.lean ====
section
/-! DEFINITION. The two well-formedness checks: an instruction whose register fields all name a register (R64), and a
map OPC that is injective (R7). Neither is a condition of decode: an instruction with a register field of 8 or more
decodes, and raises AddressOutOfRange when it executes. -/

namespace Sys2Proof

/-- A register field names one of r0 to r7 (R64). -/
def namesRegister (field : Byte) : Bool := decide (field.toNat < numRegs)

/-- Every register field the instruction uses names a register: `a` of LDI, PRN, ADD, MUL, PUSH, POP and CALL, and `b`
of ADD and MUL (R64, R183 (b)). LDI's immediate is unrestricted (R65). -/
def Instr.wellFormed : Instr → Bool
  | .hlt     => true
  | .ldi a _ => namesRegister a
  | .prn a   => namesRegister a
  | .add a b => namesRegister a && namesRegister b
  | .mul a b => namesRegister a && namesRegister b
  | .push a  => namesRegister a
  | .pop a   => namesRegister a
  | .call a  => namesRegister a
  | .ret     => true

/-- OPC is injective: the nine mnemonics take nine distinct byte values (R7). -/
def Opcodes.wellFormed (opc : Opcodes) : Bool := decide opc.toList.Nodup

end Sys2Proof
end

