-- ==== Sys2Proof/Decode.lean ====
section
/-! DEFINITION. From bytes to instructions and back: the formats and lengths of R61, decode by the whole opcode byte
(R62), the encoder written from the same table, and the spec's default values of the parameters (R63, R186, R103). -/

namespace Sys2Proof

/-! ### The default parameters -/

/-- R63: the default of OPC. PRESUMED (log entry 1): the source gives no opcode byte; these are the spec's defaults,
from general knowledge of the LS-8 teaching computer (spec/92_eei_decisions.md D1). -/
def Opcodes.specDefault : Opcodes where
  hlt  := 0x01
  ldi  := 0x82
  prn  := 0x47
  add  := 0xA0
  mul  := 0xA2
  push := 0x45
  pop  := 0x46
  call := 0x50
  ret  := 0x11

/-- R186: the spec's own numbers for the error kinds (its decision D6, log entry 8). -/
def ErrCodes.specDefault : ErrCodes where
  noError              := 0
  invalidOpcode        := 1
  unsupportedOperation := 2
  addressOutOfRange    := 3
  programTooLarge      := 4

/-- The default configuration: OPC of R63, ERR_CODE of R186, PRN_LINE_END one line feed (R103, log entry 9). -/
def Config.specDefault : Config where
  opc        := Opcodes.specDefault
  errCodes   := ErrCodes.specDefault
  prnLineEnd := [0x0A]

/-! ### Formats and lengths (R61) -/

/-- The format of each instruction (R61). -/
def Mnemonic.format : Mnemonic → Format
  | .hlt  => .f0
  | .ldi  => .f2ri
  | .prn  => .f1r
  | .add  => .f2rr
  | .mul  => .f2rr
  | .push => .f1r
  | .pop  => .f1r
  | .call => .f1r
  | .ret  => .f0

/-- The length in bytes of each format (R61). -/
def Format.length : Format → Nat
  | .f0   => 1
  | .f1r  => 2
  | .f2rr => 3
  | .f2ri => 3

/-- The source's "width": the length of an instruction, a function of the opcode alone (R60, R67). -/
def Mnemonic.width (m : Mnemonic) : Nat := m.format.length

/-- Which of the nine instructions a term is. -/
def Instr.mnemonic : Instr → Mnemonic
  | .hlt     => .hlt
  | .ldi _ _ => .ldi
  | .prn _   => .prn
  | .add _ _ => .add
  | .mul _ _ => .mul
  | .push _  => .push
  | .pop _   => .pop
  | .call _  => .call
  | .ret     => .ret

/-! ### Decode (R62, R82) -/

/-- The opcode byte of each instruction under OPC. -/
def Opcodes.byteOf (opc : Opcodes) : Mnemonic → Byte
  | .hlt  => opc.hlt
  | .ldi  => opc.ldi
  | .prn  => opc.prn
  | .add  => opc.add
  | .mul  => opc.mul
  | .push => opc.push
  | .pop  => opc.pop
  | .call => opc.call
  | .ret  => opc.ret

/-- The nine instructions in R2's order. -/
def Mnemonic.all : List Mnemonic := [.hlt, .ldi, .prn, .add, .mul, .push, .pop, .call, .ret]

/-- R62: the instruction whose opcode value equals the whole opcode byte, if any. -/
def Opcodes.lookup (opc : Opcodes) (opcode : Byte) : Option Mnemonic :=
  Mnemonic.all.find? fun m => decide (opc.byteOf m = opcode)

/-- The instruction of a mnemonic with the fetched operand bytes; the bytes its format does not have are ignored
(R61, R66). -/
def Mnemonic.instr : Mnemonic → Byte → Byte → Instr
  | .hlt,  _, _ => .hlt
  | .ldi,  a, b => .ldi a b
  | .prn,  a, _ => .prn a
  | .add,  a, b => .add a b
  | .mul,  a, b => .mul a b
  | .push, a, _ => .push a
  | .pop,  a, _ => .pop a
  | .call, a, _ => .call a
  | .ret,  _, _ => .ret

/-- Decode: total on any three fetched bytes, rejecting an opcode byte outside OPC by name (R62, R66, R82). -/
def decode (opc : Opcodes) (w : FetchWindow) : Except DecodeReject Instr :=
  match opc.lookup w.opcode with
  | some m => .ok (m.instr w.a w.b)
  | none   => .error (.invalidOpcode w.opcode)

/-! ### Encode (R60, R61) -/

/-- The operand bytes of an instruction in order (R61). -/
def Instr.operandBytes : Instr → List Byte
  | .hlt     => []
  | .ldi a b => [a, b]
  | .prn a   => [a]
  | .add a b => [a, b]
  | .mul a b => [a, b]
  | .push a  => [a]
  | .pop a   => [a]
  | .call a  => [a]
  | .ret     => []

/-- The bytes of an instruction at ascending addresses: the opcode byte, then the operand bytes (R45, R60). -/
def encode (opc : Opcodes) (i : Instr) : List Byte :=
  opc.byteOf i.mnemonic :: i.operandBytes

/-- The first three bytes of a byte sequence, as fetch would read them; a missing byte reads as 0. -/
def FetchWindow.ofBytes (bs : List Byte) : FetchWindow where
  opcode := bs.getD 0 0
  a      := bs.getD 1 0
  b      := bs.getD 2 0

/-- The three bytes at ascending addresses (R45, R80). -/
def FetchWindow.toBytes (w : FetchWindow) : List Byte := [w.opcode, w.a, w.b]

/-! ### The host's numbering of a table word -/

/-- The bytes of a word numbered as spec/opcode_table.json numbers it: bits 7..0 are the byte at the lowest address. -/
def FetchWindow.ofWord (n : Nat) : FetchWindow where
  opcode := BitVec.ofNat 8 n
  a      := BitVec.ofNat 8 (n / 2 ^ 8)
  b      := BitVec.ofNat 8 (n / 2 ^ 16)

/-- The instruction the decoder reads from a table row's word of `nbits` bits, every bit above them 0. -/
def decodeTableWord (nbits w : Nat) : Option Instr :=
  (decode Config.specDefault.opc (FetchWindow.ofWord (w % 2 ^ nbits))).toOption

/-! ### The spec's example assembler syntax (R68) -/

/-- The spelling of each mnemonic: capitals (R68). -/
def Mnemonic.text : Mnemonic → String
  | .hlt  => "HLT"
  | .ldi  => "LDI"
  | .prn  => "PRN"
  | .add  => "ADD"
  | .mul  => "MUL"
  | .push => "PUSH"
  | .pop  => "POP"
  | .call => "CALL"
  | .ret  => "RET"

/-- A register operand: `r` and its index in decimal, `r8` to `r255` writing an index that names no register (R68). -/
def regText (field : Byte) : String := "r" ++ toString field.toNat

/-- One instruction as a line of the spec's syntax, the immediate in decimal (R68). -/
def Instr.text : Instr → String
  | .hlt     => Mnemonic.text .hlt
  | .ldi a b => Mnemonic.text .ldi ++ " " ++ regText a ++ ", " ++ toString b.toNat
  | .prn a   => Mnemonic.text .prn ++ " " ++ regText a
  | .add a b => Mnemonic.text .add ++ " " ++ regText a ++ ", " ++ regText b
  | .mul a b => Mnemonic.text .mul ++ " " ++ regText a ++ ", " ++ regText b
  | .push a  => Mnemonic.text .push ++ " " ++ regText a
  | .pop a   => Mnemonic.text .pop ++ " " ++ regText a
  | .call a  => Mnemonic.text .call ++ " " ++ regText a
  | .ret     => Mnemonic.text .ret

/-- A line of the syntax (R68). -/
def AsmLine.text : AsmLine → String
  | .instr i => i.text
  | .byte v  => ".byte " ++ toString v.toNat

/-- The bytes a line stands for: an instruction's encoding, or the byte placed (R68). -/
def AsmLine.bytes (opc : Opcodes) : AsmLine → List Byte
  | .instr i => encode opc i
  | .byte v  => [v]

/-- The image of a list of lines, at ascending addresses in order (R45, R68). -/
def assemble (opc : Opcodes) (lines : List AsmLine) : List Byte := lines.flatMap (AsmLine.bytes opc)

end Sys2Proof
end

