-- ==== Sys2Proof/Machine/State.lean ====
section
/-! DEFINITION. The state of the core (spec/10_state.md R20 to R34), the error kinds (R27, R180), the reasons a step
can stop, and the state after reset. -/

namespace Sys2Proof.Machine

/-- The memory `MEM` (R20) as (address, byte) pairs in one canonical form (`Memory.wf` in Ops.lean): addresses strictly
rising and below 256, and no entry equal to what an unlisted address reads as. -/
abbrev Memory := List Host.Cell

/-- The errors that stop the core while it runs, the values of `ERR` other than None (R27, R180). Each leads to a next
state (`State.raise`, R185), never to a fault of the model. -/
inductive ErrorKind where
  /-- R181: the fetched opcode byte equals no value of OPC. -/
  | invalidOpcode
  /-- R182: the arithmetic unit is asked for an operation outside {ADD, MUL}; no opcode can cause it. -/
  | unsupportedOperation
  /-- R183: a fetch with `pc >= 254`, or a register field above 7. -/
  | addressOutOfRange
  deriving DecidableEq, Repr

/-- The error of the host's load; never a value of `ERR` (R184). -/
inductive LoadError where
  /-- R184: the image does not fit in memory from its offset. -/
  | programTooLarge
  deriving DecidableEq, Repr

/-- The three states of the core (R88). -/
inductive CoreStatus where
  | running
  | halted
  | haltedWithError
  deriving DecidableEq, Repr

/-- Why `step` has no next state. -/
inductive Fault where
  /-- Raised by `step` alone, for a core that is not running: no step is defined there (R85, R88). SAFE: the model stops
  where the spec defines nothing, and the state is the one before (log entry 2). -/
  | halted
  deriving DecidableEq, Repr

/-- Why the model gives an instruction no meaning. -/
inductive Refusal where
  /-- For an instruction still without a meaning. No arm of `exec` answers it: all nine have their meaning. SAFE. -/
  | notModelled (mnemonic : String)
  deriving DecidableEq, Repr

/-- Everything the core holds between steps (spec/10_state.md; the fetched bytes are not among it, R31). -/
structure State where
  /-- `MEM` (R20). -/
  mem     : Memory
  /-- `x[0]` to `x[7]`; `x[7]` is SP (R21, R23). -/
  regs    : Vector Byte 8
  /-- `pc`: 0 to 256, never reduced modulo anything (R24). -/
  pc      : Nat
  /-- The running flag (R26). -/
  running : Bool
  /-- `ERR`, `none` standing for None (R27). -/
  err     : Option ErrorKind
  /-- `OUT`, the oldest value first (R30). -/
  out     : List Byte
  deriving DecidableEq, Repr

/-- The three outcomes of a step of this core. -/
abbrev Answer := Host.Outcome State Fault Refusal

/-- What `run` answers its caller after at most so many steps (R214). -/
inductive RunAnswer where
  /-- The core is halted: the result (`none` for success, or the error in `ERR`) and the state it left. -/
  | returned (result : Option ErrorKind) (final : State)
  /-- The core is still running after the steps given: `run` has not returned (R89), so the host is still blocked and
  cannot inspect this state (R33, `inspect`); it is the model's own intermediate value (log entry 7). -/
  | inProgress (s : State)
  /-- A step of a running core had no next state. It cannot happen: `exec` always answers a next state. -/
  | noStep (s : State)
  deriving DecidableEq, Repr

/-- What the host reads of a core whose run is not in progress (R32 (d), R33), with `OUT` (R32 (c)). -/
structure Inspection where
  cells   : List Byte
  regs    : List Byte
  pc      : Nat
  running : Bool
  errCode : Nat
  out     : List Byte
  deriving DecidableEq, Repr

/-- What a call of `run` has come to after the steps given it (R214; log entry 7). -/
inductive CallStatus where
  /-- No call of `run` is in progress. -/
  | notCalled
  /-- The call still blocks the host: it has not returned. -/
  | blocked
  /-- The call has returned: success (`none`) or the error in `ERR`. -/
  | returned (result : Option ErrorKind)
  deriving DecidableEq, Repr

/-- The state after reset, that is after construction (R34, R210): everything zero, running, no error, no output. -/
def State.reset : State where
  mem     := []
  regs    := Vector.replicate 8 0
  pc      := 0
  running := true
  err     := none
  out     := []

/-- The Machine as its one host has it (R32, R50): the core, and whether a call of `run` is in progress. The second is
known to the host alone: the core neither reads nor writes it, so it stands beside `State` (R31). It differs from
`running`, which is true before the first run too (R34). -/
structure Session where
  core  : State
  inRun : Bool
  deriving DecidableEq, Repr

/-- Construction of the Machine: the core after reset, and no run in progress (R34, R210). -/
def Session.reset : Session where
  core  := State.reset
  inRun := false

end Sys2Proof.Machine
end

