-- ==== Sys2Proof/Machine/Flags.lean ====
section
/-! DEFINITION. The status of the core. It has no condition code and no arithmetic flag, and no instruction sets or
reads one (R28), so there is no flag computation here: the only status is the running flag (R26) and `ERR` (R27). -/

namespace Sys2Proof.Machine

/-- `running <- false` (R26). Nothing sets the flag but reset. -/
def State.clearRunning (s : State) : State := { s with running := false }

/-- Which of the three states of R88 the core is in. -/
def State.status (s : State) : CoreStatus :=
  match s.running, s.err with
  | true,  _      => .running
  | false, none   => .halted
  | false, some _ => .haltedWithError

/-- The number of an error status under ERR_CODE (R27, R186). -/
def errNumber (codes : ErrCodes) : Option ErrorKind → Nat
  | none                       => codes.noError
  | some .invalidOpcode        => codes.invalidOpcode
  | some .unsupportedOperation => codes.unsupportedOperation
  | some .addressOutOfRange    => codes.addressOutOfRange

/-- The number of the load error under ERR_CODE (R186). -/
def loadErrNumber (codes : ErrCodes) : LoadError → Nat
  | .programTooLarge => codes.programTooLarge

end Sys2Proof.Machine
end

