-- ==== Sys2Proof/Machine/Ops.lean ====
section
/-! DEFINITION. The shared operations: the memory and register primitives of R9 with their bounds checks (R21, R22, R41,
R42), the output channel, the program counter, and raising an error (R185). -/

namespace Sys2Proof.Machine

/-! ### Memory as a canonical list -/

/-- What an unlisted address reads as: every cell is 0 after reset (R34). -/
def Memory.unlisted : Byte := 0

/-- The canonical form: addresses strictly rising and inside the 256 cells (R20), no entry that an unlisted address would
give anyway. Equal memories are then equal lists. -/
abbrev Memory.wf (m : Memory) : Prop :=
  m.Pairwise (fun c d => c.1 < d.1) ∧ ∀ c ∈ m, c.1 < memSize ∧ c.2 ≠ Memory.unlisted

/-- The byte at an address. -/
def Memory.read : Memory → Nat → Byte
  | [],          _    => Memory.unlisted
  | (k, v) :: m, addr => if k = addr then v else Memory.read m addr

/-- The memory with an address unlisted. -/
def Memory.remove (m : Memory) (addr : Nat) : Memory := m.filter fun c => decide (c.1 ≠ addr)

/-- The memory with one more entry, before the first entry of a higher address. -/
def Memory.place : Memory → Nat → Byte → Memory
  | [],          addr, v => [(addr, v)]
  | (k, w) :: m, addr, v => if addr < k then (addr, v) :: (k, w) :: m else (k, w) :: Memory.place m addr v

/-- The memory with `v` at an address. -/
def Memory.write (m : Memory) (addr : Nat) (v : Byte) : Memory :=
  if v = Memory.unlisted then m.remove addr else (m.remove addr).place addr v

/-- The memory with a sequence of bytes at ascending addresses (R45, R212). -/
def Memory.writeBytes : Memory → Nat → List Byte → Memory
  | m, _,    []      => m
  | m, addr, v :: vs => Memory.writeBytes (m.write addr v) (addr + 1) vs

/-! ### The primitives of R9 -/

/-- `v mod 256` of R8: an exact integer narrowed to a byte. -/
def narrow (v : Int) : Byte := BitVec.ofInt 8 v

/-- `x[i]`: register `i`, AddressOutOfRange when `i > 7`; the index is never masked (R21). -/
def regRead (i : Nat) (s : State) : Except ErrorKind Byte :=
  if h : i < numRegs then .ok s.regs[i] else .error .addressOutOfRange

/-- `x[i] <- v`: stores `v mod 256`, AddressOutOfRange when `i > 7` (R22). -/
def regWrite (i : Nat) (v : Int) (s : State) : Except ErrorKind State :=
  if h : i < numRegs then .ok { s with regs := s.regs.set i (narrow v) } else .error .addressOutOfRange

/-- `MemRead(addr, 1)`: AddressOutOfRange when `addr > 255`; an address is never reduced (R41). -/
def memRead (addr : Nat) (s : State) : Except ErrorKind Byte :=
  if addr < memSize then .ok (s.mem.read addr) else .error .addressOutOfRange

/-- `MemWrite(addr, 1, v)`: stores `v mod 256`, AddressOutOfRange when `addr > 255` (R42). -/
def memWrite (addr : Nat) (v : Int) (s : State) : Except ErrorKind State :=
  if addr < memSize then .ok { s with mem := s.mem.write addr (narrow v) } else .error .addressOutOfRange

/-- `SP`: the value of r7 (R9, R23, R140). -/
def State.sp (s : State) : Byte := s.regs[7]

/-- `SP <- (SP + d) mod 256`: a register write (R141). -/
def moveSp (d : Int) (s : State) : Except ErrorKind State := regWrite spIndex ((s.sp.toNat : Int) + d) s

/-- `emit(v)`: append to `OUT` (R30). -/
def State.emit (s : State) (v : Byte) : State := { s with out := s.out ++ [v] }

/-- `pc <- target` (R24). -/
def State.setPc (s : State) (target : Nat) : State := { s with pc := target }

/-- The generic advance, not reduced modulo 256 (R84). -/
def State.advance (s : State) (width : Nat) : State := { s with pc := s.pc + width }

/-! ### Raising an error -/

/-- R185: what an error does. `ERR` takes the kind and `running` is cleared; `pc`, registers, memory and output keep the
values they had before the step. No control transfer, no saved state, no handler (R189), and no return: nothing but
reset leaves the state (R190). -/
def State.raise (s : State) (e : ErrorKind) : State := { s with err := some e, running := false }

/-- The end of an instruction that started in `s`. An error is precise: whatever the instruction had computed is dropped
and the state is the one before the step with R185's two changes (R188). -/
def settle (s : State) : Except ErrorKind State → Answer
  | .ok t    => .next t
  | .error e => .next (s.raise e)

end Sys2Proof.Machine
end

