-- ==== Sys2Proof/Machine/Operands.lean ====
section
/-! DEFINITION. The operand forms of R61, R64 and R65: a register field, used as source or destination, and LDI's
immediate. -/

namespace Sys2Proof.Machine

/-- The check of a register field that PUSH, POP and CALL make before any write: `if a > 7: raise AddressOutOfRange`
(R64, R142, R143, R160, R188). -/
def checkField (field : Byte) : Except ErrorKind Unit :=
  if field.toNat < numRegs then .ok () else .error .addressOutOfRange

/-- A register field as a source: the whole byte is the index (R64). -/
def readField (field : Byte) (s : State) : Except ErrorKind Byte := regRead field.toNat s

/-- A register field as a destination: the whole byte is the index (R64). -/
def writeField (field : Byte) (v : Int) (s : State) : Except ErrorKind State := regWrite field.toNat v s

/-- The immediate field of LDI: the byte as it stands (R65). -/
def immediate (field : Byte) : Int := field.toNat

end Sys2Proof.Machine
end

