-- ==== Sys2Proof/Machine/Alu.lean ====
section
/-! DEFINITION. The arithmetic unit, ADD and MUL (spec/42_alu.md). -/

namespace Sys2Proof.Machine

/-- Which operation decode asks the unit for: exactly ADD and MUL route there (R121). `none` is a request outside the
enumeration, which no opcode makes of the unit. -/
def aluRequest : Mnemonic → Option AluOp
  | .add  => some .add
  | .mul  => some .mul
  | .hlt  => none
  | .ldi  => none
  | .prn  => none
  | .push => none
  | .pop  => none
  | .call => none
  | .ret  => none

/-- `f_op(u, v)` before the reduction: the exact integer result (R123). -/
def aluExact : AluOp → Byte → Byte → Int
  | .add, u, v => (u.toNat : Int) + v.toNat
  | .mul, u, v => (u.toNat : Int) * v.toNat

/-- `apply(op, ia, ib)`: both reads, then the one write of the result modulo 256 (R120, R123). A request outside
{ADD, MUL} raises UnsupportedOperation before any register is read (R122). -/
def aluApply (request : Option AluOp) (ia ib : Byte) (s : State) : Except ErrorKind State :=
  match request with
  | none    => .error .unsupportedOperation
  | some op => do
    let u ← readField ia s
    let v ← readField ib s
    writeField ia (aluExact op u v) s

/-- R124. -/
def execAdd (a b : Byte) (s : State) : Answer :=
  settle s do
    let t ← aluApply (aluRequest .add) a b s
    return t.advance (Mnemonic.width .add)

/-- R125. -/
def execMul (a b : Byte) (s : State) : Answer :=
  settle s do
    let t ← aluApply (aluRequest .mul) a b s
    return t.advance (Mnemonic.width .mul)

end Sys2Proof.Machine
end

