-- ==== Sys2Proof/Machine/CallReturn.lean ====
section
/-! DEFINITION. CALL and RET (spec/44_call_return.md). They set `pc` themselves and receive no generic advance (R84). -/

namespace Sys2Proof.Machine

/-- R160. The return address is `pc + 2` (R162); the target register is read after the decrement. -/
def execCall (a : Byte) (s : State) : Answer :=
  settle s do
    checkField a
    let s₁ ← moveSp (-1) s
    let s₂ ← memWrite s₁.sp.toNat ((s.pc + Mnemonic.width .call : Nat) : Int) s₁
    let target ← readField a s₂
    return s₂.setPc target.toNat

/-- R161. -/
def execRet (s : State) : Answer :=
  settle s do
    let target ← memRead s.sp.toNat s
    moveSp 1 (s.setPc target.toNat)

end Sys2Proof.Machine
end

