-- ==== Sys2Proof/Machine/ControlMove.lean ====
section
/-! DEFINITION. HLT, LDI and PRN (spec/41_control_move.md), and the text of what PRN emits (R103). -/

namespace Sys2Proof.Machine

/-- R100. -/
def execHlt (s : State) : Answer :=
  settle s (.ok (s.clearRunning.advance (Mnemonic.width .hlt)))

/-- R101. -/
def execLdi (a b : Byte) (s : State) : Answer :=
  settle s do
    let t ← writeField a (immediate b) s
    return t.advance (Mnemonic.width .ldi)

/-- R102. -/
def execPrn (a : Byte) (s : State) : Answer :=
  settle s do
    let v ← readField a s
    return (s.emit v).advance (Mnemonic.width .prn)

/-! ### PRN's text (R103) -/

/-- The decimal digits of a value 0 to 255, most significant first, no leading zero. -/
def decimalDigits (v : Byte) : List Nat :=
  let n := v.toNat
  if n < 10 then [n] else if n < 100 then [n / 10, n % 10] else [n / 100, n / 10 % 10, n % 10]

/-- The ASCII code of a decimal digit. -/
def asciiDigit (d : Nat) : Byte := BitVec.ofNat 8 (48 + d)

/-- The line the environment writes for one value: its digits, then PRN_LINE_END. -/
def prnLine (cfg : Config) (v : Byte) : List Byte := (decimalDigits v).map asciiDigit ++ cfg.prnLineEnd

/-- The text of the output channel: one line per value (R30, R103). -/
def outText (cfg : Config) (s : State) : List Byte := s.out.flatMap (prnLine cfg)

end Sys2Proof.Machine
end

