-- ==== Sys2Proof/Machine/Stack.lean ====
section
/-! DEFINITION. PUSH and POP (spec/43_stack.md), in the source's order: each line reads the state the line before it
left (R10). -/

namespace Sys2Proof.Machine

/-- R142. The register is read after the decrement, so PUSH r7 stores the decremented SP. -/
def execPush (a : Byte) (s : State) : Answer :=
  settle s do
    checkField a
    let s₁ ← moveSp (-1) s
    let v ← readField a s₁
    let s₂ ← memWrite s₁.sp.toNat v.toNat s₁
    return s₂.advance (Mnemonic.width .push)

/-- R143. SP is incremented after the register write, so POP r7 increments the value it loaded. -/
def execPop (a : Byte) (s : State) : Answer :=
  settle s do
    checkField a
    let v ← memRead s.sp.toNat s
    let s₁ ← writeField a v.toNat s
    let s₂ ← moveSp 1 s₁
    return s₂.advance (Mnemonic.width .pop)

end Sys2Proof.Machine
end

