-- ==== Sys2Proof/Machine/Fetch.lean ====
section
/-! DEFINITION. The fetch and decode phases of a step (R80 to R82, R85). -/

namespace Sys2Proof.Machine

/-- R80: the three bytes at `pc`, `pc + 1` and `pc + 2`, in this order and unconditionally. Each is a bounds-checked
memory read, so a fetch with `pc >= 254` raises AddressOutOfRange (R81). -/
def fetch (s : State) : Except ErrorKind FetchWindow := do
  let opcode ← memRead s.pc s
  let a ← memRead (s.pc + 1) s
  let b ← memRead (s.pc + 2) s
  return { opcode, a, b }

/-- R82: decode as a phase of the step; an opcode byte outside OPC raises InvalidOpcode. -/
def decodePhase (opc : Opcodes) (w : FetchWindow) : Except ErrorKind Instr :=
  match decode opc w with
  | .ok i                     => .ok i
  | .error (.invalidOpcode _) => .error .invalidOpcode

/-- Fetch, then decode: the instruction the next step executes, or the error it raises, fetch errors first (R187). -/
def fetchDecode (opc : Opcodes) (s : State) : Except ErrorKind Instr := do
  let w ← fetch s
  decodePhase opc w

end Sys2Proof.Machine
end

