-- ==== Sys2Proof/Machine/Step.lean ====
section
/-! DEFINITION. One step of the core (R85), under any OPC and under the default one, and the host's way to place the next
instruction. -/

namespace Sys2Proof.Machine

/-- R85 for a core built with the map `opc`. A step is defined only when `running` is true (R85, R88); an error in the
fetch or decode phase is raised as R185 says. -/
def stepWith (opc : Opcodes) (s : State) : Host.Outcome State Fault Refusal :=
  if s.running then
    match fetchDecode opc s with
    | .ok i    => exec i s
    | .error e => .next (s.raise e)
  else .fault .halted

/-- One step of the core built with the default configuration (OPC of R63, log entry 1). -/
def step (s : State) : Host.Outcome State Fault Refusal := stepWith Config.specDefault.opc s

/-- `s` with the word `w` of `nbits` bits (every bit above them 0, up to three bytes) stored at `pc`, `pc + 1` and
`pc + 2`, where the next fetch reads. Memory has no cell for it when `pc >= 254`, where no instruction can be fetched
(R81, R219); nothing changes then. Log entry 10. -/
def State.withFetchWord (s : State) (nbits w : Nat) : State :=
  if s.pc + 2 < memSize then
    { s with mem := s.mem.writeBytes s.pc (FetchWindow.ofWord (w % 2 ^ nbits)).toBytes }
  else s

end Sys2Proof.Machine
end

