-- ==== Sys2Proof/Machine/HostOps.lean ====
section
/-! DEFINITION. The host-facing operations (R32): load (R212, R213, R184), run (R214, R215) and inspection (R33), first on
the core's state, then as the host has them on a `Session`, where load, run and inspection are possible only while no run
is in progress (R33, R50, R213). -/

namespace Sys2Proof.Machine

/-- R212: copy an image into memory from an offset, ProgramTooLarge when it does not fit. Nothing but the image's cells
is written, and no opcode is validated. -/
def load (s : State) (image : List Byte) (offset : Nat := 0) : Except LoadError State :=
  if memSize < offset + image.length then .error .programTooLarge
  else .ok { s with mem := s.mem.writeBytes offset image }

/-- R214, R215: execute steps while `running` is true, at most `fuel` of them, and answer when the core is halted with
`ERR` as the result. A halted core takes no step and keeps its state. `fuel` is the model's own: `run` itself has no
bound and may never return (R89), which is `inProgress` for every `fuel` (log entry 7). -/
def runWith (opc : Opcodes) : Nat → State → RunAnswer
  | 0, s => if s.running then .inProgress s else .returned s.err s
  | fuel + 1, s =>
    if s.running then
      match stepWith opc s with
      | .next t    => runWith opc fuel t
      | .fault _   => .noStep s
      | .refused _ => .noStep s
    else .returned s.err s

/-- `run` of the core built with the default configuration. -/
def run (fuel : Nat) (s : State) : RunAnswer := runWith Config.specDefault.opc fuel s

/-- The part of a state that inspection shows (R32 (c), (d)), `ERR` as its number (R186). The host has it through
`inspect` only. -/
def State.view (cfg : Config) (s : State) : Inspection where
  cells   := (List.range memSize).map s.mem.read
  regs    := s.regs.toList
  pc      := s.pc
  running := s.running
  errCode := errNumber cfg.errCodes s.err
  out     := s.out

/-- R33: inspection reads the state and changes nothing, and is possible only while `run` is not in progress: before the
first run or after a run returns. -/
def inspect (cfg : Config) (h : Session) : Option Inspection :=
  if h.inRun then none else some (h.core.view cfg)

/-- R213, R50: a load happens only while `run` is not in progress; it is then the load of R212. -/
def hostLoad (h : Session) (image : List Byte) (offset : Nat := 0) : Option (Except LoadError Session) :=
  if h.inRun then none else some ((load h.core image offset).map fun t => { h with core := t })

/-- R214: the host calls `run`, which blocks it. The one host cannot call again before the call returns (R50). -/
def callRun (h : Session) : Option Session :=
  if h.inRun then none else some { h with inRun := true }

/-- R214: a call of `run` goes on for at most `fuel` steps. It returns when the core is halted, which ends the run, and
else still blocks the host. -/
def proceed (opc : Opcodes) (fuel : Nat) (h : Session) : Session × CallStatus :=
  if h.inRun then
    match runWith opc fuel h.core with
    | .returned result t => (⟨t, false⟩, .returned result)
    | .inProgress t      => (⟨t, true⟩, .blocked)
    | .noStep t          => (⟨t, true⟩, .blocked)
  else (h, .notCalled)

end Sys2Proof.Machine
end

