-- ==== Sys2Proof/Safety.lean ====
section
/-! DEFINITION. What the statements call a legal state, a frame and a safe run. -/

namespace Sys2Proof.Machine

/-- The relations between fields that hold after reset and that every step keeps: memory is canonical (R20), `pc` is 0 to
256 (R24), a running core has no error (R88), and `ERR` is never UnsupportedOperation (R122). -/
structure State.Inv (s : State) : Prop where
  mem_wf          : s.mem.wf
  pc_le           : s.pc ≤ 256
  running_no_err  : s.running = true → s.err = none
  err_supported   : s.err ≠ some .unsupportedOperation

/-- While no run is in progress the core is halted or has never run (R33, R34, R50): a core that is still `running` is as
constructed, but for the memory that loads have written. -/
def Session.Inv (h : Session) : Prop :=
  h.inRun = false → h.core.running = true → ∃ mem, h.core = { State.reset with mem := mem }

/-- Every address reads in `t` as in `s`. -/
def SameMemory (s t : State) : Prop := ∀ addr, t.mem.read addr = s.mem.read addr

/-- Every address outside the one stored to reads in `t` as in `s`. -/
def SameMemoryBut (addr : Nat) (s t : State) : Prop := ∀ b, b ≠ addr → t.mem.read b = s.mem.read b

/-- Every register whose number is not listed holds in `t` what it holds in `s`. -/
def SameRegsBut (written : List Nat) (s t : State) : Prop :=
  ∀ (r : Nat) (h : r < 8), r ∉ written → t.regs[r] = s.regs[r]

/-- The status is as before: the running flag and `ERR`. -/
def SameStatus (s t : State) : Prop := t.running = s.running ∧ t.err = s.err

/-- A run is safe when it returns success: the core halted by HLT, with no error (R214). -/
def SafeRun (opc : Opcodes) (s : State) : Prop := ∃ fuel final, runWith opc fuel s = .returned none final

end Sys2Proof.Machine
end

