-- ==== Sys2Proof/Certificates/Slice0/Obligations.lean ====
section
/-! DEFINITION. The statements about the model, for the provers. They hold for every map OPC unless they name the default
one (`Opcodes.specDefault`, log entry 1); `step` is `stepWith` at the default. Each docstring names the rule of spec/ that
it formalises, and the log entry where a clause rests on a choice. Where a rule says that an error is raised, the statement
says so by `State.raise`, a next state (log entry 3); what raising does is R185, which the spec marks as its own decision D5
(log entries 8 and 12) and RaisingAnErrorStopsTheCore states. -/

open Sys2Proof Sys2Proof.Machine

/-! ### Reset, and the invariant of the state -/

/-- R34: the state after reset. -/
def Obligations.ResetState : Prop :=
  (∀ addr, addr ≤ 255 → State.reset.mem.read addr = 0) ∧
  (∀ (r : Nat) (h : r < 8), State.reset.regs[r] = 0) ∧
  State.reset.pc = 0 ∧ State.reset.running = true ∧ State.reset.err = none ∧ State.reset.out = []

/-- The state after reset is a legal state (`State.Inv`). -/
def Obligations.ResetIsLegal : Prop := State.reset.Inv

/-- Every step, under every OPC, leads from a legal state to a legal one: memory stays canonical inside the 256 cells
(R20), `pc` stays 0 to 256 (R24, the spec's derivation), a running core has no error (R88), and `ERR` is never
UnsupportedOperation (R122). -/
def Obligations.StepKeepsLegalStates : Prop :=
  ∀ (opc : Opcodes) (s t : State), s.Inv → stepWith opc s = .next t → t.Inv

/-- The host's load keeps a legal state legal, for every image and offset (R212). -/
def Obligations.LoadKeepsLegalStates : Prop :=
  ∀ (s t : State) (image : List Byte) (offset : Nat), s.Inv → load s image offset = .ok t → t.Inv

/-- What a run from a legal state returns: a legal state that is Halted or Halted-with-error, the result telling which,
and never UnsupportedOperation (R88, R122, R214). The step budget is the model's own (log entry 7). -/
def Obligations.RunReturnsLegalHaltedStates : Prop :=
  ∀ (opc : Opcodes) (fuel : Nat) (s t : State) (r : Option ErrorKind), s.Inv → runWith opc fuel s = .returned r t →
    t.Inv ∧ (r = none → t.status = .halted) ∧ (r ≠ none → t.status = .haltedWithError) ∧
      r ≠ some .unsupportedOperation

/-! ### Registers and memory -/

/-- R21: a register read. -/
def Obligations.RegisterReadContract : Prop :=
  ∀ (i : Nat) (s : State),
    (∀ h : i < 8, regRead i s = .ok s.regs[i]) ∧ (7 < i → regRead i s = .error .addressOutOfRange)

/-- R22: a register write stores the value modulo 256 and writes nothing else; an index above 7 raises. -/
def Obligations.RegisterWriteContract : Prop :=
  ∀ (i : Nat) (v : Int) (s : State),
    (∀ h : i < 8, ∃ t, regWrite i v s = .ok t ∧ (t.regs[i].toNat : Int) = v % 256 ∧ SameRegsBut [i] s t ∧
      t = { s with regs := t.regs }) ∧
    (7 < i → regWrite i v s = .error .addressOutOfRange)

/-- R41: a memory read. -/
def Obligations.MemoryReadContract : Prop :=
  ∀ (addr : Nat) (s : State),
    (addr ≤ 255 → memRead addr s = .ok (s.mem.read addr)) ∧ (255 < addr → memRead addr s = .error .addressOutOfRange)

/-- R42: a memory write stores the value modulo 256 in the one cell and changes nothing else; an address above 255
raises. It holds for every memory list, canonical or not. -/
def Obligations.MemoryWriteContract : Prop :=
  ∀ (addr : Nat) (v : Int) (s : State),
    (addr ≤ 255 → ∃ t, memWrite addr v s = .ok t ∧ ((t.mem.read addr).toNat : Int) = v % 256 ∧
      SameMemoryBut addr s t ∧ t = { s with mem := t.mem }) ∧
    (255 < addr → memWrite addr v s = .error .addressOutOfRange)

/-- The canonical form is canonical: two well-formed memories that read the same at every address are the same list. -/
def Obligations.EqualReadsMeanEqualMemories : Prop :=
  ∀ m n : Memory, m.wf → n.wf → (∀ addr, m.read addr = n.read addr) → m = n

/-! ### Encoding -/

/-- Decode and encode agree: under every injective OPC (R7), every instruction, with every operand byte, is decoded from
its own encoding, whatever bytes follow it in memory. -/
def Obligations.DecodeEncodeRoundTrip : Prop :=
  ∀ opc : Opcodes, opc.wellFormed = true → ∀ (i : Instr) (rest : List Byte),
    decode opc (FetchWindow.ofBytes (encode opc i ++ rest)) = .ok i

/-- The other direction: an instruction that decode reads from three bytes encodes to the first of those bytes, as many as
the instruction is long. It holds under every map, injective or not. -/
def Obligations.EncodeOfDecodedGivesBytesRead : Prop :=
  ∀ (opc : Opcodes) (w : FetchWindow) (i : Instr), decode opc w = .ok i →
    encode opc i = w.toBytes.take i.mnemonic.width

/-- R62: decode compares the whole opcode byte with the nine values of OPC; a byte equal to none is an invalid opcode. -/
def Obligations.WholeOpcodeByteSelects : Prop :=
  ∀ opc : Opcodes, opc.wellFormed = true → ∀ opcode a b : Byte,
    (∀ m, opc.byteOf m = opcode → decode opc ⟨opcode, a, b⟩ = .ok (m.instr a b)) ∧
    ((∀ m, opc.byteOf m ≠ opcode) → decode opc ⟨opcode, a, b⟩ = .error (.invalidOpcode opcode))

/-- R61: the format, the length and the bytes of each instruction. -/
def Obligations.FormatsAndLengths : Prop :=
  ∀ (opc : Opcodes) (a b : Byte),
    (Mnemonic.hlt.format = .f0 ∧ Mnemonic.hlt.width = 1 ∧ encode opc .hlt = [opc.hlt]) ∧
    (Mnemonic.ldi.format = .f2ri ∧ Mnemonic.ldi.width = 3 ∧ encode opc (.ldi a b) = [opc.ldi, a, b]) ∧
    (Mnemonic.prn.format = .f1r ∧ Mnemonic.prn.width = 2 ∧ encode opc (.prn a) = [opc.prn, a]) ∧
    (Mnemonic.add.format = .f2rr ∧ Mnemonic.add.width = 3 ∧ encode opc (.add a b) = [opc.add, a, b]) ∧
    (Mnemonic.mul.format = .f2rr ∧ Mnemonic.mul.width = 3 ∧ encode opc (.mul a b) = [opc.mul, a, b]) ∧
    (Mnemonic.push.format = .f1r ∧ Mnemonic.push.width = 2 ∧ encode opc (.push a) = [opc.push, a]) ∧
    (Mnemonic.pop.format = .f1r ∧ Mnemonic.pop.width = 2 ∧ encode opc (.pop a) = [opc.pop, a]) ∧
    (Mnemonic.call.format = .f1r ∧ Mnemonic.call.width = 2 ∧ encode opc (.call a) = [opc.call, a]) ∧
    (Mnemonic.ret.format = .f0 ∧ Mnemonic.ret.width = 1 ∧ encode opc .ret = [opc.ret])

/-- Words written out from R61 and R63's byte values decode to the instructions they stand for. The byte values are the
spec's general-knowledge defaults (log entry 1), no rule. -/
def Obligations.DefaultWordsDecode : Prop :=
  decode Opcodes.specDefault ⟨0b00000001, 0xFF, 0xFF⟩ = .ok .hlt ∧
  decode Opcodes.specDefault ⟨0b10000010, 0x02, 0xC8⟩ = .ok (.ldi 2 200) ∧
  decode Opcodes.specDefault ⟨0b01000111, 0x00, 0xFF⟩ = .ok (.prn 0) ∧
  decode Opcodes.specDefault ⟨0b10100000, 0x00, 0x01⟩ = .ok (.add 0 1) ∧
  decode Opcodes.specDefault ⟨0b10100010, 0x02, 0x03⟩ = .ok (.mul 2 3) ∧
  decode Opcodes.specDefault ⟨0b01000101, 0x07, 0x00⟩ = .ok (.push 7) ∧
  decode Opcodes.specDefault ⟨0b01000110, 0x01, 0x00⟩ = .ok (.pop 1) ∧
  decode Opcodes.specDefault ⟨0b01010000, 0x01, 0x00⟩ = .ok (.call 1) ∧
  decode Opcodes.specDefault ⟨0b00010001, 0x00, 0x00⟩ = .ok .ret

/-- R66: fetched bytes beyond the instruction never matter, and under the default map (log entry 1) the invalid opcode
bytes are exactly those other than R63's nine, 0x00 among them. -/
def Obligations.IgnoredAndInvalidBytes : Prop :=
  (∀ opc : Opcodes, opc.wellFormed = true → ∀ a a' b b' : Byte,
    decode opc ⟨opc.hlt, a, b⟩ = decode opc ⟨opc.hlt, a', b'⟩ ∧
    decode opc ⟨opc.ret, a, b⟩ = decode opc ⟨opc.ret, a', b'⟩ ∧
    decode opc ⟨opc.prn, a, b⟩ = decode opc ⟨opc.prn, a, b'⟩ ∧
    decode opc ⟨opc.push, a, b⟩ = decode opc ⟨opc.push, a, b'⟩ ∧
    decode opc ⟨opc.pop, a, b⟩ = decode opc ⟨opc.pop, a, b'⟩ ∧
    decode opc ⟨opc.call, a, b⟩ = decode opc ⟨opc.call, a, b'⟩) ∧
  (∀ opcode a b : Byte, decode Opcodes.specDefault ⟨opcode, a, b⟩ = .error (.invalidOpcode opcode) ↔
    opcode ∉ ([0x01, 0x11, 0x45, 0x46, 0x47, 0x50, 0x82, 0xA0, 0xA2] : List Byte))

/-! ### The cycle -/

/-- R83, R85: when the three bytes at `pc` decode to an instruction, the step is that instruction's meaning at that state,
with nothing around it, under every OPC. The second clause is no rule: the machine's own `step` is the one under the default
OPC, whose opcode bytes are an assumption (log entry 1, PRESUMED: the spec's general-knowledge default of R63). -/
def Obligations.StepRunsTheDecodedInstruction : Prop :=
  (∀ (opc : Opcodes) (s : State) (i : Instr), s.running = true → s.pc ≤ 253 →
    decode opc ⟨s.mem.read s.pc, s.mem.read (s.pc + 1), s.mem.read (s.pc + 2)⟩ = .ok i → stepWith opc s = exec i s) ∧
  (∀ s : State, step s = stepWith Opcodes.specDefault s)

/-- R80: a step of a running core begins by reading the three bytes at `pc`, `pc + 1` and `pc + 2`, whatever the
instruction turns out to be, and only these bytes decide which instruction it runs. -/
def Obligations.FetchReadsThreeBytesAtPc : Prop :=
  ∀ (opc : Opcodes) (s : State), s.running = true → s.pc ≤ 253 →
    fetch s = .ok ⟨s.mem.read s.pc, s.mem.read (s.pc + 1), s.mem.read (s.pc + 2)⟩ ∧
    stepWith opc s = (match decodePhase opc ⟨s.mem.read s.pc, s.mem.read (s.pc + 1), s.mem.read (s.pc + 2)⟩ with
      | .ok i    => exec i s
      | .error e => .next (s.raise e))

/-- R81, R219: a fetch with `pc >= 254` raises AddressOutOfRange for every opcode byte and every OPC, with nothing decoded
and nothing executed. The spec marks R81 as its own decision D2. -/
def Obligations.FetchPastEndRaises : Prop :=
  ∀ (opc : Opcodes) (s : State), s.running = true → 254 ≤ s.pc →
    fetch s = .error .addressOutOfRange ∧
    stepWith opc s = .next { s with err := some .addressOutOfRange, running := false }

/-- R82: an opcode byte outside OPC raises InvalidOpcode; the operand bytes are not interpreted, nothing executes and `pc`
is unchanged. -/
def Obligations.InvalidOpcodeRaises : Prop :=
  ∀ (opc : Opcodes) (s : State), s.running = true → s.pc ≤ 253 → (∀ m, opc.byteOf m ≠ s.mem.read s.pc) →
    stepWith opc s = .next (s.raise .invalidOpcode) ∧ (s.raise .invalidOpcode).pc = s.pc

/-- R84: after an instruction other than CALL and RET executes without error, `pc` has grown by the instruction's length,
not reduced modulo 256; CALL and RET set `pc` themselves, with no advance on top. -/
def Obligations.GenericAdvance : Prop :=
  ∀ (i : Instr) (s : State), i.wellFormed = true → ∃ t, exec i s = .next t ∧
    (match i with
      | .hlt     => t.pc = s.pc + 1
      | .ldi _ _ => t.pc = s.pc + 3
      | .prn _   => t.pc = s.pc + 2
      | .add _ _ => t.pc = s.pc + 3
      | .mul _ _ => t.pc = s.pc + 3
      | .push _  => t.pc = s.pc + 2
      | .pop _   => t.pc = s.pc + 2
      | .call a  => ∀ h : a.toNat < 8, t.pc = (s.regs.set 7 (s.regs[7] - 1))[a.toNat].toNat
      | .ret     => t.pc = (s.mem.read s.regs[7].toNat).toNat)

/-- R88: the three states and the only transitions between them. A step of a Running core stays Running, or reaches Halted
exactly by HLT, or reaches Halted-with-error exactly by raising an error; neither halted state has a next state. -/
def Obligations.CoreStatesAndTransitions : Prop :=
  ∀ (opc : Opcodes) (s : State),
    (s.running = true → s.err = none → ∃ t, stepWith opc s = .next t ∧
      ((t.status = .running ∧ t.err = none) ∨ t.status = .halted ∨ t.status = .haltedWithError) ∧
      (t.status = .halted ↔ fetchDecode opc s = .ok .hlt) ∧
      (t.status = .haltedWithError ↔ ∃ e, t = s.raise e)) ∧
    (s.running = false → ∀ t, stepWith opc s ≠ .next t)

/-- R185: what raising an error does; the core is then Halted-with-error. The spec marks the rule as its decision D5. -/
def Obligations.RaisingAnErrorStopsTheCore : Prop :=
  ∀ (s : State) (e : ErrorKind),
    (s.raise e).err = some e ∧ (s.raise e).running = false ∧ (s.raise e).pc = s.pc ∧ (s.raise e).regs = s.regs ∧
    (s.raise e).mem = s.mem ∧ (s.raise e).out = s.out ∧ (s.raise e).status = .haltedWithError

/-- R188: errors are precise. Whatever error a step raises, its next state is the state before with `ERR` and `running`
changed and nothing else. The spec marks the rule as its decision D5. -/
def Obligations.ErrorsArePrecise : Prop :=
  ∀ (opc : Opcodes) (s t : State) (e : ErrorKind), s.err = none → stepWith opc s = .next t → t.err = some e →
    t = { s with err := some e, running := false }

/-- R183, R187: which error a step of a Running core raises: AddressOutOfRange from fetch, else InvalidOpcode, else
AddressOutOfRange from a register field the instruction uses, else none. The spec marks the order as its decision D7. -/
def Obligations.ErrorPriority : Prop :=
  ∀ (opc : Opcodes) (s t : State), s.err = none → stepWith opc s = .next t →
    t.err = if 254 ≤ s.pc then some .addressOutOfRange
      else match decode opc ⟨s.mem.read s.pc, s.mem.read (s.pc + 1), s.mem.read (s.pc + 2)⟩ with
        | .error _ => some .invalidOpcode
        | .ok i    => if i.wellFormed then none else some .addressOutOfRange

/-- R30: the output channel only grows, by one value a step, and only PRN writes it, the value being that of the register
it names. The spec marks R30 as its decision D9. -/
def Obligations.OutputIsAppendOnly : Prop :=
  ∀ (opc : Opcodes) (s t : State), stepWith opc s = .next t →
    t.out = s.out ∨
    ∃ (a : Byte) (h : a.toNat < 8), fetchDecode opc s = .ok (.prn a) ∧ t.out = s.out ++ [s.regs[a.toNat]]

/-- R26, R29: no instruction writes the running flag or `ERR`, except that HLT clears the flag and an error writes both; no
instruction sets the flag. -/
def Obligations.StatusWrittenOnlyByHltAndErrors : Prop :=
  ∀ (i : Instr) (s : State), ∃ t, exec i s = .next t ∧
    (t.running = true → s.running = true) ∧
    (SameStatus s t ∨ (i = .hlt ∧ t.running = false ∧ t.err = s.err) ∨ ∃ e, t = s.raise e)

/-- R29, R30: no instruction reads the running flag, `ERR` or the output channel: from two states that differ in these
alone an instruction does the same to memory, registers and `pc`, and appends the same values. -/
def Obligations.NoInstructionReadsStatusOrOutput : Prop :=
  ∀ (i : Instr) (s : State) (running : Bool) (err : Option ErrorKind) (out : List Byte), ∃ t t',
    exec i s = .next t ∧ exec i { s with running := running, err := err, out := out } = .next t' ∧
    t'.mem = t.mem ∧ t'.regs = t.regs ∧ t'.pc = t.pc ∧ ∃ l, t.out = s.out ++ l ∧ t'.out = out ++ l

/-- R40: LDI, PRN, ADD, MUL and HLT do not access memory: from two states that differ in memory alone they do the same to
everything else, and leave each memory as it was. -/
def Obligations.RegisterInstructionsIgnoreMemory : Prop :=
  ∀ (i : Instr), i.mnemonic ∈ [Mnemonic.ldi, .prn, .add, .mul, .hlt] → ∀ (s : State) (mem : Memory), ∃ t,
    exec i s = .next t ∧ t.mem = s.mem ∧ exec i { s with mem := mem } = .next { t with mem := mem }

/-- R7, R83: under every injective OPC, a running core whose memory holds an instruction's encoding at `pc` executes that
instruction, whatever its operand bytes and whatever follows it. -/
def Obligations.EncodedInstructionRunsUnderEveryOpc : Prop :=
  ∀ opc : Opcodes, opc.wellFormed = true → ∀ (i : Instr) (s : State), s.running = true → s.pc ≤ 253 →
    (∀ (k : Nat) (h : k < (encode opc i).length), s.mem.read (s.pc + k) = (encode opc i)[k]) →
    stepWith opc s = exec i s

/-- The host's way to place an instruction (log entry 10) places it where the next step fetches, and changes nothing but
those three cells. -/
def Obligations.PlacedWordIsTheNextInstruction : Prop :=
  ∀ (s : State) (nbits w : Nat) (i : Instr), s.running = true → s.pc ≤ 253 → decodeTableWord nbits w = some i →
    step (s.withFetchWord nbits w) = exec i (s.withFetchWord nbits w) ∧
    (∀ addr, addr < s.pc ∨ s.pc + 2 < addr → (s.withFetchWord nbits w).mem.read addr = s.mem.read addr) ∧
    s.withFetchWord nbits w = { s with mem := (s.withFetchWord nbits w).mem }

/-! ### The instructions -/

/-- R100, HLT: its effect; it is never executed at 254 or 255 (by R81, the spec's decision D2, log entry 4); a run that
comes to it returns success at once (said with the model's step budget, log entry 7); and no other instruction halts the core without an error. The default opcode byte
the rule mentions is no part of this statement: it is R63's general-knowledge value (log entry 1,
`DefaultWordsDecode`). -/
def Obligations.HltRule : Prop :=
  ∀ opc : Opcodes, opc.wellFormed = true → ∀ s : State,
    encode opc .hlt = [opc.hlt] ∧ (∀ a b, decode opc ⟨opc.hlt, a, b⟩ = .ok .hlt) ∧
    exec .hlt s = .next { s with running := false, pc := s.pc + 1 } ∧
    (s.running = true → 254 ≤ s.pc → stepWith opc s = .next (s.raise .addressOutOfRange)) ∧
    (s.running = true → s.err = none → s.pc ≤ 253 → s.mem.read s.pc = opc.hlt → ∀ fuel,
      runWith opc (fuel + 1) s = .returned none { s with running := false, pc := s.pc + 1 }) ∧
    (∀ i t, s.running = true → exec i s = .next t → t.running = false → t.err = none → i = .hlt)

/-- R101, LDI: every destination field and every immediate. (On the default opcode byte see `HltRule`.) -/
def Obligations.LdiRule : Prop :=
  ∀ opc : Opcodes, opc.wellFormed = true → ∀ (a b : Byte) (s : State),
    encode opc (.ldi a b) = [opc.ldi, a, b] ∧ decode opc ⟨opc.ldi, a, b⟩ = .ok (.ldi a b) ∧
    (∀ h : a.toNat < 8, exec (.ldi a b) s = .next { s with regs := s.regs.set a.toNat b, pc := s.pc + 3 }) ∧
    (7 < a.toNat → exec (.ldi a b) s = .next (s.raise .addressOutOfRange))

/-- R102, PRN: every source field; the third fetched byte is ignored. (On the default opcode byte see `HltRule`.) -/
def Obligations.PrnRule : Prop :=
  ∀ opc : Opcodes, opc.wellFormed = true → ∀ (a : Byte) (s : State),
    encode opc (.prn a) = [opc.prn, a] ∧ (∀ b, decode opc ⟨opc.prn, a, b⟩ = .ok (.prn a)) ∧
    (∀ h : a.toNat < 8, exec (.prn a) s = .next { s with out := s.out ++ [s.regs[a.toNat]], pc := s.pc + 2 }) ∧
    (7 < a.toNat → exec (.prn a) s = .next (s.raise .addressOutOfRange))

/-- R124, ADD: every pair of fields, equal ones and r7 included. (On the default opcode byte see `HltRule`.) -/
def Obligations.AddRule : Prop :=
  ∀ opc : Opcodes, opc.wellFormed = true → ∀ (a b : Byte) (s : State),
    encode opc (.add a b) = [opc.add, a, b] ∧ decode opc ⟨opc.add, a, b⟩ = .ok (.add a b) ∧
    (∀ (ha : a.toNat < 8) (hb : b.toNat < 8), exec (.add a b) s = .next { s with
      regs := s.regs.set a.toNat (BitVec.ofNat 8 ((s.regs[a.toNat].toNat + s.regs[b.toNat].toNat) % 256)),
      pc := s.pc + 3 }) ∧
    (7 < a.toNat ∨ 7 < b.toNat → exec (.add a b) s = .next (s.raise .addressOutOfRange))

/-- R125, MUL: every pair of fields, equal ones and r7 included. (On the default opcode byte see `HltRule`.) -/
def Obligations.MulRule : Prop :=
  ∀ opc : Opcodes, opc.wellFormed = true → ∀ (a b : Byte) (s : State),
    encode opc (.mul a b) = [opc.mul, a, b] ∧ decode opc ⟨opc.mul, a, b⟩ = .ok (.mul a b) ∧
    (∀ (ha : a.toNat < 8) (hb : b.toNat < 8), exec (.mul a b) s = .next { s with
      regs := s.regs.set a.toNat (BitVec.ofNat 8 ((s.regs[a.toNat].toNat * s.regs[b.toNat].toNat) % 256)),
      pc := s.pc + 3 }) ∧
    (7 < a.toNat ∨ 7 < b.toNat → exec (.mul a b) s = .next (s.raise .addressOutOfRange))

/-- R142, PUSH: the register is read after SP is decremented, so PUSH r7 stores the decremented SP. (On the default opcode
byte see `HltRule`.) -/
def Obligations.PushRule : Prop :=
  ∀ opc : Opcodes, opc.wellFormed = true → ∀ (a : Byte) (s : State),
    encode opc (.push a) = [opc.push, a] ∧ (∀ b, decode opc ⟨opc.push, a, b⟩ = .ok (.push a)) ∧
    (∀ h : a.toNat < 8,
      let regs := s.regs.set 7 (s.regs[7] - 1)
      exec (.push a) s = .next { s with
        regs := regs, mem := s.mem.write regs[7].toNat regs[a.toNat], pc := s.pc + 2 }) ∧
    (7 < a.toNat → exec (.push a) s = .next (s.raise .addressOutOfRange))

/-- R143, POP: SP is incremented after the register is written, so POP r7 increments the value it loaded; memory is
unchanged. (On the default opcode byte see `HltRule`.) -/
def Obligations.PopRule : Prop :=
  ∀ opc : Opcodes, opc.wellFormed = true → ∀ (a : Byte) (s : State),
    encode opc (.pop a) = [opc.pop, a] ∧ (∀ b, decode opc ⟨opc.pop, a, b⟩ = .ok (.pop a)) ∧
    (∀ h : a.toNat < 8,
      let regs := s.regs.set a.toNat (s.mem.read s.regs[7].toNat)
      exec (.pop a) s = .next { s with regs := regs.set 7 (regs[7] + 1), pc := s.pc + 2 }) ∧
    (7 < a.toNat → exec (.pop a) s = .next (s.raise .addressOutOfRange))

/-- R160, CALL: the byte after the CALL is pushed, and the target register is read after SP is decremented. (On the default
opcode byte see `HltRule`.) -/
def Obligations.CallRule : Prop :=
  ∀ opc : Opcodes, opc.wellFormed = true → ∀ (a : Byte) (s : State),
    encode opc (.call a) = [opc.call, a] ∧ (∀ b, decode opc ⟨opc.call, a, b⟩ = .ok (.call a)) ∧
    (∀ h : a.toNat < 8,
      let regs := s.regs.set 7 (s.regs[7] - 1)
      exec (.call a) s = .next { s with
        regs := regs, mem := s.mem.write regs[7].toNat (BitVec.ofNat 8 (s.pc + 2)), pc := regs[a.toNat].toNat }) ∧
    (7 < a.toNat → exec (.call a) s = .next (s.raise .addressOutOfRange))

/-- R161, RET: `pc` takes the byte at SP, then SP is incremented; memory is unchanged; on 254 and 255 and on the
default opcode byte see `HltRule`. -/
def Obligations.RetRule : Prop :=
  ∀ opc : Opcodes, opc.wellFormed = true → ∀ s : State,
    encode opc .ret = [opc.ret] ∧ (∀ a b, decode opc ⟨opc.ret, a, b⟩ = .ok .ret) ∧
    exec .ret s = .next { s with pc := (s.mem.read s.regs[7].toNat).toNat, regs := s.regs.set 7 (s.regs[7] + 1) } ∧
    (s.running = true → 254 ≤ s.pc → stepWith opc s = .next (s.raise .addressOutOfRange))

/-- R64: an instruction with a register field of 8 to 255 is decoded like any other and raises AddressOutOfRange at
execute; with its fields in 0 to 7 it raises nothing. -/
def Obligations.BadRegisterFieldRaises : Prop :=
  ∀ (i : Instr) (s : State),
    (∀ opc : Opcodes, opc.wellFormed = true → decode opc (FetchWindow.ofBytes (encode opc i)) = .ok i) ∧
    (i.wellFormed = false → exec i s = .next (s.raise .addressOutOfRange)) ∧
    (i.wellFormed = true → ∃ t, exec i s = .next t ∧ t.err = s.err)

/-! ### The arithmetic unit -/

/-- R120, R123: the unit reads both registers and writes the exact result modulo 256 to the first, and nothing else. -/
def Obligations.AluApplyRule : Prop :=
  ∀ (op : AluOp) (a b : Byte) (s : State) (ha : a.toNat < 8) (hb : b.toNat < 8),
    ∃ t, aluApply (some op) a b s = .ok t ∧
      t.regs[a.toNat].toNat = (match op with
        | .add => (s.regs[a.toNat].toNat + s.regs[b.toNat].toNat) % 256
        | .mul => (s.regs[a.toNat].toNat * s.regs[b.toNat].toNat) % 256) ∧
      SameRegsBut [a.toNat] s t ∧ t = { s with regs := t.regs }

/-- R121: exactly ADD and MUL route to the unit, each with its own operation. -/
def Obligations.AluDispatch : Prop :=
  (∀ (m : Mnemonic) (op : AluOp), aluRequest m = some op ↔ (m = .add ∧ op = .add) ∨ (m = .mul ∧ op = .mul)) ∧
  (∀ (a b : Byte) (s : State),
    exec (.add a b) s = settle s ((aluApply (some .add) a b s).map (·.advance 3)) ∧
    exec (.mul a b) s = settle s ((aluApply (some .mul) a b s).map (·.advance 3)))

/-- R122: a request outside {ADD, MUL} raises UnsupportedOperation whatever the registers and fields, and no step raises
it. The spec marks the rule as its decision D7. -/
def Obligations.UnsupportedOperationIsUnreachable : Prop :=
  (∀ (a b : Byte) (s : State), aluApply none a b s = .error .unsupportedOperation) ∧
  (∀ (opc : Opcodes) (s t : State), s.err ≠ some .unsupportedOperation → stepWith opc s = .next t →
    t.err ≠ some .unsupportedOperation)

/-! ### Frames: what an instruction leaves unchanged when its fields name registers (with a field above 7 it leaves
everything but the status unchanged: `BadRegisterFieldRaises`) -/

/-- HLT, LDI, PRN, ADD, MUL: no register but the destination, no byte of memory, no status but HLT's flag, no output but
PRN's one value. -/
def Obligations.FrameOfRegisterInstructions : Prop :=
  ∀ (s t : State) (a b : Byte),
    (exec .hlt s = .next t →
      SameRegsBut [] s t ∧ SameMemory s t ∧ t.running = false ∧ t.err = s.err ∧ t.out = s.out) ∧
    (a.toNat < 8 → exec (.ldi a b) s = .next t →
      SameRegsBut [a.toNat] s t ∧ SameMemory s t ∧ SameStatus s t ∧ t.out = s.out) ∧
    (a.toNat < 8 → exec (.prn a) s = .next t →
      SameRegsBut [] s t ∧ SameMemory s t ∧ SameStatus s t ∧ ∃ v, t.out = s.out ++ [v]) ∧
    (a.toNat < 8 → b.toNat < 8 → exec (.add a b) s = .next t →
      SameRegsBut [a.toNat] s t ∧ SameMemory s t ∧ SameStatus s t ∧ t.out = s.out) ∧
    (a.toNat < 8 → b.toNat < 8 → exec (.mul a b) s = .next t →
      SameRegsBut [a.toNat] s t ∧ SameMemory s t ∧ SameStatus s t ∧ t.out = s.out)

/-- POP, RET: no register but POP's destination and the stack pointer r7, which both also update; no byte of memory. -/
def Obligations.FrameOfStackReaders : Prop :=
  ∀ (s t : State) (a : Byte),
    (a.toNat < 8 → exec (.pop a) s = .next t →
      SameRegsBut [a.toNat, 7] s t ∧ SameMemory s t ∧ SameStatus s t ∧ t.out = s.out) ∧
    (exec .ret s = .next t → SameRegsBut [7] s t ∧ SameMemory s t ∧ SameStatus s t ∧ t.out = s.out)

/-- PUSH, CALL: no register but the stack pointer r7; no byte of memory but the one at the stack pointer as the
instruction's own decrement leaves it, which is SP - 1 modulo 256. -/
def Obligations.FrameOfStackWriters : Prop :=
  ∀ (s t : State) (a : Byte), a.toNat < 8 → exec (.push a) s = .next t ∨ exec (.call a) s = .next t →
    ∃ s₁, moveSp (-1) s = .ok s₁ ∧ s₁.sp = s.sp - 1 ∧ SameMemoryBut s₁.sp.toNat s t ∧
      SameRegsBut [7] s t ∧ SameStatus s t ∧ t.out = s.out

/-! ### The stack -/

/-- R143 and E5: PUSH then POP of the same register restores every register, SP included, for r7 too; the pushed byte stays
in its cell and no other cell changes. -/
def Obligations.PushThenPopRestores : Prop :=
  ∀ (a : Byte) (s : State) (h : a.toNat < 8), ∃ t u, exec (.push a) s = .next t ∧ exec (.pop a) t = .next u ∧
    u.regs = s.regs ∧ u.pc = s.pc + 4 ∧ SameStatus s u ∧ u.out = s.out ∧
    u.mem.read (s.sp - 1).toNat = t.regs[a.toNat] ∧ SameMemoryBut (s.sp - 1).toNat s u

/-- R140, R141: SP moves modulo 256 and no move of it fails; the first PUSH after reset writes address 255. The spec marks
R141 as its decision D4. -/
def Obligations.StackPointerWraps : Prop :=
  (∀ (d : Int) (s : State), ∃ t, moveSp d s = .ok t ∧ (t.sp.toNat : Int) = ((s.sp.toNat : Int) + d) % 256) ∧
  (∀ (s t : State), s.sp = 0 → moveSp (-1) s = .ok t → t.sp = 255) ∧
  (∀ (s t : State), s.sp = 255 → moveSp 1 s = .ok t → t.sp = 0) ∧
  (∀ (m : Memory) (a : Byte) (h : a.toNat < 8), ∃ t, exec (.push a) { State.reset with mem := m } = .next t ∧
    t.sp = 255 ∧ t.mem.read 255 = t.regs[a.toNat])

/-- R162: CALL stores `pc + 2` with no truncation, and a RET that finds SP and the pushed cell undisturbed returns to it
with SP as it was before the CALL; after a RET `pc` is 0 to 255. -/
def Obligations.CallThenRetReturns : Prop :=
  (∀ (a : Byte) (s : State), a.toNat < 8 → s.pc ≤ 253 → ∃ t, exec (.call a) s = .next t ∧
    (t.mem.read t.sp.toNat).toNat = s.pc + 2 ∧
    ∀ u : State, u.sp = t.sp → u.mem.read t.sp.toNat = t.mem.read t.sp.toNat →
      ∃ v, exec .ret u = .next v ∧ v.pc = s.pc + 2 ∧ v.sp = s.sp) ∧
  (∀ s : State, ∃ v, exec .ret s = .next v ∧ v.pc ≤ 255)

/-- R52, R53: a PUSH runs with the bytes it fetched, wherever it stores, and the very next fetch sees the byte it stored. -/
def Obligations.StoreIsSeenByNextFetch : Prop :=
  ∀ opc : Opcodes, opc.wellFormed = true → ∀ (a : Byte) (s : State) (h : a.toNat < 8), s.running = true → s.pc ≤ 251 →
    s.mem.read s.pc = opc.push → s.mem.read (s.pc + 1) = a →
    let regs := s.regs.set 7 (s.regs[7] - 1)
    let seen := fun addr => if addr = regs[7].toNat then regs[a.toNat] else s.mem.read addr
    ∃ t, stepWith opc s = .next t ∧ t.regs = regs ∧
      fetch t = .ok ⟨seen (s.pc + 2), seen (s.pc + 3), seen (s.pc + 4)⟩

/-! ### Output text, error numbers and the host's operations -/

/-- R103: the text of a value is its decimal digits in ASCII, no leading zero, then the line terminator; one PRN adds one
line. The spec marks the rule as its decision D9. -/
def Obligations.PrnText : Prop :=
  (∀ (cfg : Config) (v : Byte),
    (decimalDigits v).foldl (fun n d => 10 * n + d) 0 = v.toNat ∧ (∀ d ∈ decimalDigits v, d ≤ 9) ∧
    1 ≤ (decimalDigits v).length ∧ (decimalDigits v).length ≤ 3 ∧
    ((decimalDigits v).head? = some 0 → decimalDigits v = [0]) ∧
    prnLine cfg v = (decimalDigits v).map (fun d => BitVec.ofNat 8 (48 + d)) ++ cfg.prnLineEnd) ∧
  (∀ (cfg : Config) (a : Byte) (s : State) (h : a.toNat < 8), ∃ t, exec (.prn a) s = .next t ∧
    outText cfg t = outText cfg s ++ prnLine cfg s.regs[a.toNat])

/-- R33, R50, R186, R213, R214: what inspection shows, and that the host acts only between runs (the spec's decisions D6,
D12 and D13, log entries 8, 16 and 17; the step budget of a call is the model's, log entry 7). While no run is in progress,
inspection shows every cell, every register, `pc`, the flag, the output and `ERR` by its number, and load and run are
there; while one is, none of the three is, until the call returns from a halted core. `Session.Inv` says that "no run in
progress" is before the first run or after one returned; construction has it and every operation keeps it. -/
def Obligations.InspectionReadsTheState : Prop :=
  (∀ (cfg : Config) (h : Session), h.inRun = false → ∃ v, inspect cfg h = some v ∧
    v.cells.length = 256 ∧ (∀ addr, addr < 256 → v.cells[addr]? = some (h.core.mem.read addr)) ∧
    (∀ (r : Nat) (hr : r < 8), v.regs[r]? = some h.core.regs[r]) ∧
    v.pc = h.core.pc ∧ v.running = h.core.running ∧ v.out = h.core.out ∧
    v.errCode = errNumber cfg.errCodes h.core.err) ∧
  (∀ (h : Session) (image : List Byte) (offset : Nat), h.inRun = false →
    hostLoad h image offset = some ((load h.core image offset).map fun t => ⟨t, false⟩) ∧
    callRun h = some ⟨h.core, true⟩) ∧
  (∀ (cfg : Config) (h : Session) (image : List Byte) (offset : Nat), h.inRun = true →
    inspect cfg h = none ∧ hostLoad h image offset = none ∧ callRun h = none) ∧
  (∀ (opc : Opcodes) (fuel : Nat) (h : Session), h.inRun = true →
    (∃ t, runWith opc fuel h.core = .inProgress t ∧ t.running = true ∧
      proceed opc fuel h = (⟨t, true⟩, .blocked)) ∨
    (∃ t, runWith opc fuel h.core = .returned t.err t ∧ t.running = false ∧
      proceed opc fuel h = (⟨t, false⟩, .returned t.err))) ∧
  (Session.reset.inRun = false ∧ Session.reset.core = State.reset ∧ Session.reset.Inv) ∧
  (∀ h : Session, h.Inv →
    (∀ image offset h', hostLoad h image offset = some (.ok h') → h'.Inv) ∧ (∀ h', callRun h = some h' → h'.Inv) ∧
    (∀ opc fuel, (proceed opc fuel h).1.Inv)) ∧
  errNumber ErrCodes.specDefault none = 0 ∧ errNumber ErrCodes.specDefault (some .invalidOpcode) = 1 ∧
  errNumber ErrCodes.specDefault (some .unsupportedOperation) = 2 ∧
  errNumber ErrCodes.specDefault (some .addressOutOfRange) = 3 ∧
  loadErrNumber ErrCodes.specDefault .programTooLarge = 4

/-- R184, R212: load copies the image into its cells and writes nothing else, or, when the image does not fit, answers
ProgramTooLarge with no state. -/
def Obligations.LoadContract : Prop :=
  ∀ (s : State) (image : List Byte) (offset : Nat),
    (256 < offset + image.length → load s image offset = .error .programTooLarge) ∧
    (offset + image.length ≤ 256 → ∃ t, load s image offset = .ok t ∧
      (∀ (k : Nat) (h : k < image.length), t.mem.read (offset + k) = image[k]) ∧
      (∀ addr, addr < offset ∨ offset + image.length ≤ addr → t.mem.read addr = s.mem.read addr) ∧
      t = { s with mem := t.mem }) ∧
    load s image = load s image 0

/-- R214: run executes steps while `running` is true, returns when it is false, and answers success exactly when `ERR` is
None. The step budget, and the answers `inProgress` and `noStep`, are the model's own (log entry 7, DESIGN CHOICE) and no
part of R214: they say that an unfinished run is still at a running core, and that no run is ever left without a step to
take. -/
def Obligations.RunContract : Prop :=
  ∀ (opc : Opcodes) (fuel : Nat) (s : State),
    (s.running = true → ∃ t, stepWith opc s = .next t ∧ runWith opc (fuel + 1) s = runWith opc fuel t) ∧
    (∀ r t, runWith opc fuel s = .returned r t → t.running = false ∧ r = t.err) ∧
    (∀ t, runWith opc fuel s = .inProgress t → t.running = true) ∧
    (∀ t, runWith opc fuel s ≠ .noStep t)

/-- R215: on a halted core `step` has no next state, which the model answers by its fault `halted` (log entry 2), and run
takes no step, changes no state and answers the recorded result, whatever its step budget (the model's own, log entry 7).
The spec marks R215 as its decision D8. -/
def Obligations.HaltedCoreStaysHalted : Prop :=
  ∀ (opc : Opcodes) (fuel : Nat) (s : State), s.running = false →
    stepWith opc s = .fault .halted ∧ runWith opc fuel s = .returned s.err s

/-- What a run returns does not depend on how many more steps it is allowed. The number of steps allowed is the model's own
(log entry 7, DESIGN CHOICE: the spec's run has no bound, R89, R214), so this says that the choice is harmless: the answer
of a run that returns is the one that R87's determinism and R214 give. -/
def Obligations.RunResultIsUnique : Prop :=
  ∀ (opc : Opcodes) (n k : Nat) (s t : State) (r : Option ErrorKind), runWith opc n s = .returned r t →
    runWith opc (n + k) s = .returned r t

/-- R89: a run may never return. Where PUSH of a register that holds the PUSH's own address is followed by RET, and the
stack byte lies outside these three bytes, the core runs for ever, and after every second step the registers and `pc` are
as before, and memory is as before but for the one stack byte; such a run is no safe run. "For ever" is said as "in progress
after every number of steps", the model's way to say it (log entry 7). -/
def Obligations.EndlessRun : Prop :=
  ∀ opc : Opcodes, opc.wellFormed = true → ∀ (a : Byte) (s : State) (h : a.toNat < 7), s.running = true → s.pc ≤ 251 →
    s.regs[a.toNat].toNat = s.pc → s.mem.read s.pc = opc.push → s.mem.read (s.pc + 1) = a →
    s.mem.read (s.pc + 2) = opc.ret → (s.sp - 1).toNat < s.pc ∨ s.pc + 2 < (s.sp - 1).toNat →
    ¬ SafeRun opc s ∧ ∀ n : Nat, (∃ t, runWith opc n s = .inProgress t) ∧
      ∃ t, runWith opc (2 * n) s = .inProgress t ∧ t.pc = s.pc ∧ t.regs = s.regs ∧ t.out = s.out ∧
        SameMemoryBut (s.sp - 1).toNat s t

/-- R211, R220: after reset and a load at offset 0 the first fetch reads the image's first bytes, a missing byte reading 0;
with nothing loaded the first step, under the default OPC (log entry 1), stops with InvalidOpcode. -/
def Obligations.EntryPointIsAddressZero : Prop :=
  (∀ image : List Byte, image.length ≤ 256 → ∃ t, load State.reset image = .ok t ∧ t.pc = 0 ∧
    fetch t = .ok (FetchWindow.ofBytes image)) ∧
  step State.reset = .next { State.reset with err := some .invalidOpcode, running := false }

/-- R68: a line of an assembled image is executed when `pc` reaches its address, which is the number of bytes before it.
The syntax is the spec's own choice (decision D10). -/
def Obligations.AssembledLineRunsAtItsAddress : Prop :=
  ∀ opc : Opcodes, opc.wellFormed = true → ∀ (before after : List AsmLine) (i : Instr) (s t : State),
    load s (assemble opc (before ++ .instr i :: after)) = .ok t → s.running = true →
    (assemble opc before).length ≤ 253 →
    stepWith opc { t with pc := (assemble opc before).length } = exec i { t with pc := (assemble opc before).length }
end

