-- ==== Sys2Proof/Laws/Decode.lean ====
section
/-! SUPPORT. What the opcode lookup and decode can answer. -/

namespace Sys2Proof

@[simp] theorem memSize_eq : memSize = 256 := rfl
@[simp] theorem numRegs_eq : numRegs = 8 := rfl
@[simp] theorem spIndex_eq : spIndex = 7 := rfl
@[simp] theorem Config.specDefault_opc : Config.specDefault.opc = Opcodes.specDefault := rfl

/-- A field names a register exactly when its index is 0 to 7 (R64). -/
@[simp] theorem namesRegister_iff (field : Byte) : namesRegister field = true ↔ field.toNat < 8 := by
  simp [namesRegister]

@[simp] theorem namesRegister_false_iff (field : Byte) : namesRegister field = false ↔ 8 ≤ field.toNat := by
  simp [namesRegister]

@[simp] theorem Mnemonic.mem_all (m : Mnemonic) : m ∈ Mnemonic.all := by cases m <;> decide

/-- What a lookup finds has the byte looked up (R62). -/
theorem Opcodes.byteOf_of_lookup {opc : Opcodes} {b : Byte} {m : Mnemonic} (h : opc.lookup b = some m) :
    opc.byteOf m = b := by
  simpa using List.find?_some h

/-- A lookup fails exactly on the bytes outside OPC (R66). -/
theorem Opcodes.lookup_eq_none {opc : Opcodes} {b : Byte} : opc.lookup b = none ↔ ∀ m, opc.byteOf m ≠ b := by
  simp [Opcodes.lookup, List.find?_eq_none]

/-- The bytes of OPC are those of the mnemonics, in R2's order. -/
theorem Opcodes.toList_eq_map (opc : Opcodes) : opc.toList = Mnemonic.all.map opc.byteOf := rfl

/-- In a well-formed OPC two mnemonics never share a byte (R7). -/
theorem Opcodes.byteOf_injective {opc : Opcodes} (h : opc.wellFormed = true) {m n : Mnemonic}
    (e : opc.byteOf m = opc.byteOf n) : m = n := by
  have hn : (Mnemonic.all.map opc.byteOf).Nodup := by
    rw [← Opcodes.toList_eq_map]
    exact of_decide_eq_true h
  exact List.inj_on_of_nodup_map hn (Mnemonic.mem_all m) (Mnemonic.mem_all n) e

@[simp] theorem Instr.mnemonic_instr (m : Mnemonic) (a b : Byte) : (m.instr a b).mnemonic = m := by cases m <;> rfl

/-- An instruction is 1, 2 or 3 bytes long (R60). -/
theorem Mnemonic.width_bounds (m : Mnemonic) : 1 ≤ m.width ∧ m.width ≤ 3 := by cases m <;> decide

/-- Decode as a function of what the lookup finds. -/
theorem decode_of_lookup {opc : Opcodes} {w : FetchWindow} {m : Mnemonic} (h : opc.lookup w.opcode = some m) :
    decode opc w = .ok (m.instr w.a w.b) := by simp [decode, h]

theorem decode_of_lookup_none {opc : Opcodes} {w : FetchWindow} (h : opc.lookup w.opcode = none) :
    decode opc w = .error (.invalidOpcode w.opcode) := by simp [decode, h]

end Sys2Proof
end

