-- ==== Sys2Proof/Laws/Memory.lean ====
section
/-! SUPPORT. The laws of the memory list: what a read gives after a write, and that every operation keeps the canonical
form. The read laws hold for every list, canonical or not. -/

namespace Sys2Proof.Machine

@[simp] theorem Memory.read_nil (addr : Nat) : Memory.read [] addr = 0 := rfl

theorem Memory.read_cons (k : Nat) (v : Byte) (m : Memory) (addr : Nat) :
    Memory.read ((k, v) :: m) addr = if k = addr then v else Memory.read m addr := rfl

/-- An address no entry names reads as unlisted. -/
theorem Memory.read_of_forall_ne {m : Memory} {addr : Nat} (h : ∀ c ∈ m, c.1 ≠ addr) :
    Memory.read m addr = Memory.unlisted := by
  induction m with
  | nil => rfl
  | cons c m ih =>
    simp only [List.forall_mem_cons] at h
    rw [Memory.read_cons, if_neg h.1, ih h.2]

theorem Memory.read_remove (m : Memory) (addr b : Nat) :
    Memory.read (m.remove addr) b = if b = addr then Memory.unlisted else Memory.read m b := by
  induction m with
  | nil => split <;> rfl
  | cons c m ih =>
    obtain ⟨k, w⟩ := c
    by_cases hk : k = addr
    · subst hk
      have : Memory.remove ((k, w) :: m) k = Memory.remove m k := by simp [Memory.remove]
      rw [this, ih, Memory.read_cons]
      by_cases hb : b = k
      · simp [hb]
      · simp [hb, Ne.symm hb]
    · have : Memory.remove ((k, w) :: m) addr = (k, w) :: Memory.remove m addr := by simp [Memory.remove, hk]
      rw [this, Memory.read_cons, Memory.read_cons, ih]
      by_cases hb : k = b
      · subst hb; simp [hk]
      · simp [hb]

theorem Memory.forall_mem_remove_ne (m : Memory) (addr : Nat) : ∀ c ∈ m.remove addr, c.1 ≠ addr := by
  intro c hc
  simpa using (List.mem_filter.mp hc).2

theorem Memory.read_place {m : Memory} {addr : Nat} (h : ∀ c ∈ m, c.1 ≠ addr) (v : Byte) (b : Nat) :
    Memory.read (m.place addr v) b = if b = addr then v else Memory.read m b := by
  induction m with
  | nil => simp [Memory.place, Memory.read_cons, eq_comm]
  | cons c m ih =>
    obtain ⟨k, w⟩ := c
    simp only [List.forall_mem_cons] at h
    rw [Memory.place]
    by_cases hlt : addr < k
    · rw [if_pos hlt, Memory.read_cons]
      by_cases hb : addr = b
      · simp [hb]
      · simp [hb, Ne.symm hb]
    · rw [if_neg hlt, Memory.read_cons, Memory.read_cons, ih h.2]
      by_cases hb : k = b
      · have : b ≠ addr := fun e => h.1 (hb.trans e)
        simp [hb, this]
      · simp [hb]

/-- A read after a write: the value written at its address, and what was there before at every other. -/
theorem Memory.read_write (m : Memory) (addr : Nat) (v : Byte) (b : Nat) :
    Memory.read (m.write addr v) b = if b = addr then v else Memory.read m b := by
  unfold Memory.write
  split
  · next h => rw [Memory.read_remove, h]
  · rw [Memory.read_place (m.forall_mem_remove_ne addr), Memory.read_remove]
    split <;> simp_all

@[simp] theorem Memory.read_write_self (m : Memory) (addr : Nat) (v : Byte) :
    Memory.read (m.write addr v) addr = v := by simp [Memory.read_write]

theorem Memory.read_write_of_ne (m : Memory) {addr b : Nat} (v : Byte) (h : b ≠ addr) :
    Memory.read (m.write addr v) b = Memory.read m b := by simp [Memory.read_write, h]

/-! ### The canonical form -/

theorem Memory.wf_nil : Memory.wf [] := ⟨.nil, by simp⟩

theorem Memory.wf.remove {m : Memory} (h : m.wf) (addr : Nat) : (m.remove addr).wf :=
  ⟨h.1.filter _, fun c hc => h.2 c (List.mem_filter.mp hc).1⟩

theorem Memory.mem_place {m : Memory} {addr : Nat} {v : Byte} {c : Host.Cell} (hc : c ∈ m.place addr v) :
    c = (addr, v) ∨ c ∈ m := by
  induction m with
  | nil => simpa [Memory.place] using hc
  | cons d m ih =>
    obtain ⟨k, w⟩ := d
    rw [Memory.place] at hc
    split at hc
    · simpa using hc
    · rcases List.mem_cons.mp hc with rfl | hc
      · simp
      · rcases ih hc with h | h
        · exact .inl h
        · exact .inr (List.mem_cons_of_mem _ h)

theorem Memory.wf.place {m : Memory} (h : m.wf) {addr : Nat} (hne : ∀ c ∈ m, c.1 ≠ addr) (ha : addr < memSize)
    {v : Byte} (hv : v ≠ Memory.unlisted) : (m.place addr v).wf := by
  refine ⟨?_, fun c hc => ?_⟩
  · have hs := h.1
    clear h
    induction m with
    | nil => simp [Memory.place]
    | cons d m ih =>
      obtain ⟨k, w⟩ := d
      simp only [List.forall_mem_cons] at hne
      rw [List.pairwise_cons] at hs
      rw [Memory.place]
      split
      · next hlt =>
        refine List.pairwise_cons.mpr ⟨?_, List.pairwise_cons.mpr hs⟩
        intro c hc
        rcases List.mem_cons.mp hc with rfl | hc
        · exact hlt
        · exact lt_trans hlt (hs.1 c hc)
      · next hlt =>
        refine List.pairwise_cons.mpr ⟨fun c hc => ?_, ih hne.2 hs.2⟩
        rcases Memory.mem_place hc with rfl | hc
        · exact lt_of_le_of_ne (not_lt.mp hlt) hne.1
        · exact hs.1 c hc
  · rcases Memory.mem_place hc with rfl | hc
    · exact ⟨ha, hv⟩
    · exact h.2 c hc

/-- A write inside the 256 cells keeps the canonical form. -/
theorem Memory.wf.write {m : Memory} (h : m.wf) {addr : Nat} (ha : addr < memSize) (v : Byte) : (m.write addr v).wf := by
  unfold Memory.write
  split
  · exact h.remove addr
  · next hv => exact (h.remove addr).place (m.forall_mem_remove_ne addr) ha hv

/-- A sequence of bytes inside the 256 cells keeps the canonical form. -/
theorem Memory.wf.writeBytes {m : Memory} (h : m.wf) (addr : Nat) (vs : List Byte) (ha : addr + vs.length ≤ memSize) :
    (m.writeBytes addr vs).wf := by
  induction vs generalizing m addr with
  | nil => exact h
  | cons v vs ih =>
    simp only [List.length_cons] at ha
    exact ih (h.write (by omega) v) (addr + 1) (by omega)

end Sys2Proof.Machine
end

