-- ==== Sys2Proof/Laws/State.lean ====
section
/-! SUPPORT. One lemma per field per update of State, so that no later proof unfolds a record update. -/

namespace Sys2Proof.Machine

variable (s : State)

@[simp] theorem State.clearRunning_mem : (s.clearRunning).mem = s.mem := rfl
@[simp] theorem State.clearRunning_regs : (s.clearRunning).regs = s.regs := rfl
@[simp] theorem State.clearRunning_pc : (s.clearRunning).pc = s.pc := rfl
@[simp] theorem State.clearRunning_running : (s.clearRunning).running = false := rfl
@[simp] theorem State.clearRunning_err : (s.clearRunning).err = s.err := rfl
@[simp] theorem State.clearRunning_out : (s.clearRunning).out = s.out := rfl
@[simp] theorem State.clearRunning_sp : (s.clearRunning).sp = s.sp := rfl

@[simp] theorem State.emit_mem (v : Byte) : (s.emit v).mem = s.mem := rfl
@[simp] theorem State.emit_regs (v : Byte) : (s.emit v).regs = s.regs := rfl
@[simp] theorem State.emit_pc (v : Byte) : (s.emit v).pc = s.pc := rfl
@[simp] theorem State.emit_running (v : Byte) : (s.emit v).running = s.running := rfl
@[simp] theorem State.emit_err (v : Byte) : (s.emit v).err = s.err := rfl
@[simp] theorem State.emit_out (v : Byte) : (s.emit v).out = s.out ++ [v] := rfl
@[simp] theorem State.emit_sp (v : Byte) : (s.emit v).sp = s.sp := rfl

@[simp] theorem State.setPc_mem (target : Nat) : (s.setPc target).mem = s.mem := rfl
@[simp] theorem State.setPc_regs (target : Nat) : (s.setPc target).regs = s.regs := rfl
@[simp] theorem State.setPc_pc (target : Nat) : (s.setPc target).pc = target := rfl
@[simp] theorem State.setPc_running (target : Nat) : (s.setPc target).running = s.running := rfl
@[simp] theorem State.setPc_err (target : Nat) : (s.setPc target).err = s.err := rfl
@[simp] theorem State.setPc_out (target : Nat) : (s.setPc target).out = s.out := rfl
@[simp] theorem State.setPc_sp (target : Nat) : (s.setPc target).sp = s.sp := rfl

@[simp] theorem State.advance_mem (width : Nat) : (s.advance width).mem = s.mem := rfl
@[simp] theorem State.advance_regs (width : Nat) : (s.advance width).regs = s.regs := rfl
@[simp] theorem State.advance_pc (width : Nat) : (s.advance width).pc = s.pc + width := rfl
@[simp] theorem State.advance_running (width : Nat) : (s.advance width).running = s.running := rfl
@[simp] theorem State.advance_err (width : Nat) : (s.advance width).err = s.err := rfl
@[simp] theorem State.advance_out (width : Nat) : (s.advance width).out = s.out := rfl
@[simp] theorem State.advance_sp (width : Nat) : (s.advance width).sp = s.sp := rfl

@[simp] theorem State.raise_mem (e : ErrorKind) : (s.raise e).mem = s.mem := rfl
@[simp] theorem State.raise_regs (e : ErrorKind) : (s.raise e).regs = s.regs := rfl
@[simp] theorem State.raise_pc (e : ErrorKind) : (s.raise e).pc = s.pc := rfl
@[simp] theorem State.raise_running (e : ErrorKind) : (s.raise e).running = false := rfl
@[simp] theorem State.raise_err (e : ErrorKind) : (s.raise e).err = some e := rfl
@[simp] theorem State.raise_out (e : ErrorKind) : (s.raise e).out = s.out := rfl
@[simp] theorem State.raise_sp (e : ErrorKind) : (s.raise e).sp = s.sp := rfl

end Sys2Proof.Machine
end

