-- ==== Sys2Proof/Laws/Ops.lean ====
section
/-! SUPPORT. For each shared operation one lemma that says everything it can do, which later proofs cite instead of
unfolding it. -/

namespace Sys2Proof.Machine

/-! ### Narrowing -/

@[simp] theorem narrow_toNat_cast (v : Byte) : narrow (v.toNat : Int) = v := by
  apply BitVec.eq_of_toNat_eq
  have := v.isLt
  simp only [narrow, BitVec.toNat_ofInt]
  omega

theorem narrow_natCast (n : Nat) : narrow (n : Int) = BitVec.ofNat 8 n := by
  apply BitVec.eq_of_toNat_eq
  simp only [narrow, BitVec.toNat_ofInt, BitVec.toNat_ofNat]
  omega

/-- R8, R22: a stored value is the exact integer reduced modulo 256. -/
theorem narrow_toNat (v : Int) : ((narrow v).toNat : Int) = v % 256 := by
  simp only [narrow, BitVec.toNat_ofInt]
  omega

theorem narrow_toNat_sub_one (v : Byte) : narrow ((v.toNat : Int) + -1) = v - 1 := by
  apply BitVec.eq_of_toNat_eq
  have := v.isLt
  have h1 : (1 : Byte).toNat = 1 := rfl
  simp only [narrow, BitVec.toNat_ofInt, BitVec.toNat_sub, h1]
  omega

theorem narrow_toNat_add_one (v : Byte) : narrow ((v.toNat : Int) + 1) = v + 1 := by
  apply BitVec.eq_of_toNat_eq
  have := v.isLt
  have h1 : (1 : Byte).toNat = 1 := rfl
  simp only [narrow, BitVec.toNat_ofInt, BitVec.toNat_add, h1]
  omega

theorem narrow_aluExact_add (u v : Byte) : narrow (aluExact .add u v) = u + v := by
  apply BitVec.eq_of_toNat_eq
  simp only [narrow, aluExact, BitVec.toNat_ofInt, BitVec.toNat_add]
  omega

theorem narrow_aluExact_mul (u v : Byte) : narrow (aluExact .mul u v) = u * v := by
  have : aluExact .mul u v = ((u.toNat * v.toNat : Nat) : Int) := by simp [aluExact]
  rw [this, narrow_natCast]
  apply BitVec.eq_of_toNat_eq
  simp [BitVec.toNat_mul]

/-! ### Registers and memory -/

theorem regRead_of_lt {i : Nat} (h : i < 8) (s : State) : regRead i s = .ok s.regs[i] := dif_pos h

theorem regRead_of_ge {i : Nat} (h : 8 ≤ i) (s : State) : regRead i s = .error .addressOutOfRange :=
  dif_neg (not_lt.mpr h)

theorem regWrite_of_lt {i : Nat} (h : i < 8) (v : Int) (s : State) :
    regWrite i v s = .ok { s with regs := s.regs.set i (narrow v) } := dif_pos h

theorem regWrite_of_ge {i : Nat} (h : 8 ≤ i) (v : Int) (s : State) :
    regWrite i v s = .error .addressOutOfRange := dif_neg (not_lt.mpr h)

theorem memRead_of_lt {addr : Nat} (h : addr < 256) (s : State) : memRead addr s = .ok (s.mem.read addr) := if_pos h

theorem memRead_of_ge {addr : Nat} (h : 256 ≤ addr) (s : State) : memRead addr s = .error .addressOutOfRange :=
  if_neg (not_lt.mpr h)

theorem memWrite_of_lt {addr : Nat} (h : addr < 256) (v : Int) (s : State) :
    memWrite addr v s = .ok { s with mem := s.mem.write addr (narrow v) } := if_pos h

theorem memWrite_of_ge {addr : Nat} (h : 256 ≤ addr) (v : Int) (s : State) :
    memWrite addr v s = .error .addressOutOfRange := if_neg (not_lt.mpr h)

/-- A memory access at the value of a register cannot fail (R44). -/
@[simp] theorem memRead_byte (addr : Byte) (s : State) : memRead addr.toNat s = .ok (s.mem.read addr.toNat) :=
  memRead_of_lt addr.isLt s

@[simp] theorem memWrite_byte (addr : Byte) (v : Int) (s : State) :
    memWrite addr.toNat v s = .ok { s with mem := s.mem.write addr.toNat (narrow v) } :=
  memWrite_of_lt addr.isLt v s

/-- SP arithmetic never fails (R141). -/
@[simp] theorem moveSp_eq (d : Int) (s : State) :
    moveSp d s = .ok { s with regs := s.regs.set 7 (narrow ((s.sp.toNat : Int) + d)) } := rfl

/-- The decrement of PUSH and CALL (R142, R160). -/
theorem moveSp_neg_one (s : State) : moveSp (-1) s = .ok { s with regs := s.regs.set 7 (s.regs[7] - 1) } := by
  rw [moveSp_eq, narrow_toNat_sub_one]
  rfl

/-- The increment of POP and RET (R143, R161). -/
theorem moveSp_one (s : State) : moveSp 1 s = .ok { s with regs := s.regs.set 7 (s.regs[7] + 1) } := by
  rw [moveSp_eq, narrow_toNat_add_one]
  rfl

/-- SP is r7 (R9). -/
theorem State.sp_eq (s : State) : s.sp = s.regs[7] := rfl

theorem checkField_of_lt {a : Byte} (h : a.toNat < 8) : checkField a = .ok () := if_pos h

theorem checkField_of_ge {a : Byte} (h : 8 ≤ a.toNat) : checkField a = .error .addressOutOfRange :=
  if_neg (not_lt.mpr h)

/-- What the arithmetic unit can do: the one write of R120, R122's error, or a field's AddressOutOfRange. -/
theorem aluApply_cases (request : Option AluOp) (a b : Byte) (s : State) :
    (∃ (op : AluOp) (ha : a.toNat < 8) (hb : b.toNat < 8), request = some op ∧
      aluApply request a b s =
        .ok { s with regs := s.regs.set a.toNat (narrow (aluExact op s.regs[a.toNat] s.regs[b.toNat])) }) ∨
    (request = none ∧ aluApply request a b s = .error .unsupportedOperation) ∨
    ((8 ≤ a.toNat ∨ 8 ≤ b.toNat) ∧ request ≠ none ∧ aluApply request a b s = .error .addressOutOfRange) := by
  cases request with
  | none => exact .inr (.inl ⟨rfl, rfl⟩)
  | some op =>
    by_cases ha : a.toNat < 8
    · by_cases hb : b.toNat < 8
      · refine .inl ⟨op, ha, hb, rfl, ?_⟩
        simp [aluApply, readField, writeField, regRead_of_lt ha, regRead_of_lt hb, regWrite_of_lt ha, bind,
          Except.bind]
      · refine .inr (.inr ⟨.inr (not_lt.mp hb), by simp, ?_⟩)
        simp [aluApply, readField, regRead_of_lt ha, regRead_of_ge (not_lt.mp hb), bind, Except.bind]
    · refine .inr (.inr ⟨.inl (not_lt.mp ha), by simp, ?_⟩)
      simp [aluApply, readField, regRead_of_ge (not_lt.mp ha), bind, Except.bind]

/-! ### The end of an instruction -/

@[simp] theorem settle_ok (s t : State) : settle s (.ok t) = .next t := rfl

@[simp] theorem settle_error (s : State) (e : ErrorKind) : settle s (.error e) = .next (s.raise e) := rfl

/-- An instruction always ends in a next state. -/
theorem settle_next (s : State) (r : Except ErrorKind State) : ∃ t, settle s r = .next t := by
  cases r <;> exact ⟨_, rfl⟩

/-- The canonical form survives a memory write of any address and value. -/
theorem memWrite_wf {addr : Nat} {v : Int} {s t : State} (h : s.mem.wf) (ht : memWrite addr v s = .ok t) : t.mem.wf := by
  by_cases ha : addr < 256
  · rw [memWrite_of_lt ha] at ht
    cases ht
    exact h.write ha _
  · rw [memWrite_of_ge (not_lt.mp ha)] at ht
    cases ht

/-- The canonical form survives a load of any image at any offset. -/
theorem load_wf {s t : State} {image : List Byte} {offset : Nat} (h : s.mem.wf) (ht : load s image offset = .ok t) :
    t.mem.wf := by
  unfold load at ht
  split at ht
  · cases ht
  · next hle =>
    cases ht
    exact h.writeBytes offset image (not_lt.mp hle)

end Sys2Proof.Machine
end

