-- ==== Sys2Proof/Laws/Step.lean ====
section
/-! SUPPORT. What fetch and a step can do, said once. -/

namespace Sys2Proof.Machine

/-- Inside memory, fetch gives the three bytes at `pc` (R80). -/
theorem fetch_of_le {s : State} (h : s.pc ≤ 253) :
    fetch s = .ok ⟨s.mem.read s.pc, s.mem.read (s.pc + 1), s.mem.read (s.pc + 2)⟩ := by
  simp [fetch, memRead_of_lt (show s.pc < 256 by omega), memRead_of_lt (show s.pc + 1 < 256 by omega),
    memRead_of_lt (show s.pc + 2 < 256 by omega), bind, Except.bind, pure, Except.pure]

/-- At the end of memory, fetch fails, whichever of the three reads is the first outside (R81). -/
theorem fetch_of_ge {s : State} (h : 254 ≤ s.pc) : fetch s = .error .addressOutOfRange := by
  by_cases h0 : s.pc < 256
  · by_cases h1 : s.pc + 1 < 256
    · simp [fetch, memRead_of_lt h0, memRead_of_lt h1, memRead_of_ge (show 256 ≤ s.pc + 2 by omega), bind, Except.bind]
    · simp [fetch, memRead_of_lt h0, memRead_of_ge (not_lt.mp h1), bind, Except.bind]
  · simp [fetch, memRead_of_ge (not_lt.mp h0), bind, Except.bind]

/-- The fetch and decode phases: a fetch error, an invalid opcode, or the decoded instruction (R187's first two). -/
theorem fetchDecode_cases (opc : Opcodes) (s : State) :
    (254 ≤ s.pc ∧ fetchDecode opc s = .error .addressOutOfRange) ∨
    (s.pc ≤ 253 ∧ opc.lookup (s.mem.read s.pc) = none ∧ fetchDecode opc s = .error .invalidOpcode) ∨
    (∃ m, s.pc ≤ 253 ∧ opc.lookup (s.mem.read s.pc) = some m ∧
      fetchDecode opc s = .ok (m.instr (s.mem.read (s.pc + 1)) (s.mem.read (s.pc + 2)))) := by
  by_cases h : 254 ≤ s.pc
  · exact .inl ⟨h, by simp [fetchDecode, fetch_of_ge h, bind, Except.bind]⟩
  · have hle : s.pc ≤ 253 := by omega
    cases hl : opc.lookup (s.mem.read s.pc) with
    | none =>
      exact .inr (.inl ⟨hle, rfl, by simp [fetchDecode, fetch_of_le hle, decodePhase, decode, hl, bind, Except.bind]⟩)
    | some m =>
      exact .inr (.inr ⟨m, hle, rfl,
        by simp [fetchDecode, fetch_of_le hle, decodePhase, decode, hl, bind, Except.bind]⟩)

/-- An instruction always has a next state (every meaning ends in `settle`). -/
theorem exec_next (i : Instr) (s : State) : ∃ t, exec i s = .next t := by
  cases i <;>
    simp only [exec, execHlt, execLdi, execPrn, execAdd, execMul, execPush, execPop, execCall, execRet] <;>
    exact settle_next _ _

/-- The inversion of a step: if it answers a next state, the core was running, and either an error of the fetch or decode
phase was raised, or the decoded instruction was executed. -/
theorem stepWith_cases {opc : Opcodes} {s t : State} (h : stepWith opc s = .next t) :
    s.running = true ∧
    ((∃ e, fetchDecode opc s = .error e ∧ t = s.raise e) ∨
     (∃ i, fetchDecode opc s = .ok i ∧ exec i s = .next t)) := by
  unfold stepWith at h
  split at h
  · next hr =>
    refine ⟨hr, ?_⟩
    split at h
    · next i hi => exact .inr ⟨i, hi, h⟩
    · next e he => cases h; exact .inl ⟨e, he, rfl⟩
  · cases h

/-- A core that is not running has no step (R88). -/
theorem stepWith_of_not_running {opc : Opcodes} {s : State} (h : s.running = false) :
    stepWith opc s = .fault .halted := by simp [stepWith, h]

/-- A running core always has a next state. -/
theorem stepWith_of_running (opc : Opcodes) {s : State} (h : s.running = true) : ∃ t, stepWith opc s = .next t := by
  unfold stepWith
  rw [if_pos h]
  split
  · exact exec_next _ s
  · exact ⟨_, rfl⟩

end Sys2Proof.Machine
end

