-- ==== Sys2Proof/Laws/HostOps.lean ====
section
/-! SUPPORT. What the host's operations can do, said once. -/

namespace Sys2Proof.Machine

/-- With no step allowed, or none to take, `runWith` answers at once. -/
theorem runWith_of_not_running (opc : Opcodes) (fuel : Nat) {s : State} (h : s.running = false) :
    runWith opc fuel s = .returned s.err s := by
  cases fuel <;> simp [runWith, h]

/-- The inversion of a run: it has returned at a halted core with its `ERR`, or it is at a running core. -/
theorem runWith_cases (opc : Opcodes) (fuel : Nat) (s : State) :
    (∃ t, runWith opc fuel s = .returned t.err t ∧ t.running = false) ∨
    (∃ t, runWith opc fuel s = .inProgress t ∧ t.running = true) := by
  induction fuel generalizing s with
  | zero =>
    cases h : s.running with
    | false => exact .inl ⟨s, runWith_of_not_running opc 0 h, h⟩
    | true  => exact .inr ⟨s, by simp [runWith, h], h⟩
  | succ n ih =>
    cases h : s.running with
    | false => exact .inl ⟨s, runWith_of_not_running opc _ h, h⟩
    | true  =>
      obtain ⟨t, ht⟩ := stepWith_of_running opc h
      simpa [runWith, h, ht] using ih t

variable {h : Session}

theorem inspect_of_idle (cfg : Config) (hr : h.inRun = false) : inspect cfg h = some (h.core.view cfg) := by
  simp [inspect, hr]

theorem inspect_of_inRun (cfg : Config) (hr : h.inRun = true) : inspect cfg h = none := by simp [inspect, hr]

theorem hostLoad_of_inRun (image : List Byte) (offset : Nat) (hr : h.inRun = true) : hostLoad h image offset = none := by
  simp [hostLoad, hr]

/-- The inversion of a load by the host: no run was in progress, and the core took the load. -/
theorem hostLoad_cases {h' : Session} {image : List Byte} {offset : Nat} (hl : hostLoad h image offset = some (.ok h')) :
    h.inRun = false ∧ load h.core image offset = .ok h'.core ∧ h'.inRun = false := by
  unfold hostLoad at hl
  split at hl
  · cases hl
  · next hr =>
    cases hc : load h.core image offset with
    | error e => simp [hc, Except.map] at hl
    | ok t => simp only [hc, Except.map, Option.some.injEq, Except.ok.injEq] at hl; subst hl; simpa using hr

theorem callRun_of_idle (hr : h.inRun = false) : callRun h = some ⟨h.core, true⟩ := by simp [callRun, hr]

theorem callRun_of_inRun (hr : h.inRun = true) : callRun h = none := by simp [callRun, hr]

/-- A call of `run` that goes on: it still blocks at a running core, or it has returned at a halted core with its `ERR`. -/
theorem proceed_cases (opc : Opcodes) (fuel : Nat) (hr : h.inRun = true) :
    (∃ t, proceed opc fuel h = (⟨t, true⟩, .blocked) ∧ runWith opc fuel h.core = .inProgress t ∧ t.running = true) ∨
    (∃ t, proceed opc fuel h = (⟨t, false⟩, .returned t.err) ∧ runWith opc fuel h.core = .returned t.err t ∧
      t.running = false) := by
  obtain ⟨t, ht, hs⟩ | ⟨t, ht, hs⟩ := runWith_cases opc fuel h.core
  · exact .inr ⟨t, by simp [proceed, hr, ht], ht, hs⟩
  · exact .inl ⟨t, by simp [proceed, hr, ht], ht, hs⟩

end Sys2Proof.Machine
end

