-- ==== Sys2Proof/Laws/PerInstr.lean ====
section
/-! SUPPORT. The statements about every instruction as syntax, one lemma per constructor. -/

namespace Sys2Proof.Laws.EncodingShape

/-- R60, R61: under every OPC the encoding is the opcode byte followed by the operand bytes, as long as the instruction's
width, which is 1 to 3. -/
def Statement (i : Instr) : Prop :=
  ∀ opc : Opcodes, (encode opc i).head? = some (opc.byteOf i.mnemonic) ∧
    (encode opc i).length = i.mnemonic.width ∧ 1 ≤ i.mnemonic.width ∧ i.mnemonic.width ≤ 3

theorem hlt : Statement .hlt := fun _ => ⟨rfl, rfl, Mnemonic.width_bounds _⟩
theorem ldi (a b : Byte) : Statement (.ldi a b) := fun _ => ⟨rfl, rfl, Mnemonic.width_bounds _⟩
theorem prn (a : Byte) : Statement (.prn a) := fun _ => ⟨rfl, rfl, Mnemonic.width_bounds _⟩
theorem add (a b : Byte) : Statement (.add a b) := fun _ => ⟨rfl, rfl, Mnemonic.width_bounds _⟩
theorem mul (a b : Byte) : Statement (.mul a b) := fun _ => ⟨rfl, rfl, Mnemonic.width_bounds _⟩
theorem push (a : Byte) : Statement (.push a) := fun _ => ⟨rfl, rfl, Mnemonic.width_bounds _⟩
theorem pop (a : Byte) : Statement (.pop a) := fun _ => ⟨rfl, rfl, Mnemonic.width_bounds _⟩
theorem call (a : Byte) : Statement (.call a) := fun _ => ⟨rfl, rfl, Mnemonic.width_bounds _⟩
theorem ret : Statement .ret := fun _ => ⟨rfl, rfl, Mnemonic.width_bounds _⟩

end Sys2Proof.Laws.EncodingShape

namespace Sys2Proof.Laws.RebuildsFromOperands

/-- R61: the mnemonic and the operand bytes of an instruction, read at their positions, give the instruction back: no
operand is dropped or moved. -/
def Statement (i : Instr) : Prop :=
  i.mnemonic.instr (i.operandBytes.getD 0 0) (i.operandBytes.getD 1 0) = i

theorem hlt : Statement .hlt := rfl
theorem ldi (a b : Byte) : Statement (.ldi a b) := rfl
theorem prn (a : Byte) : Statement (.prn a) := rfl
theorem add (a b : Byte) : Statement (.add a b) := rfl
theorem mul (a b : Byte) : Statement (.mul a b) := rfl
theorem push (a : Byte) : Statement (.push a) := rfl
theorem pop (a : Byte) : Statement (.pop a) := rfl
theorem call (a : Byte) : Statement (.call a) := rfl
theorem ret : Statement .ret := rfl

end Sys2Proof.Laws.RebuildsFromOperands
end

