-- ==== Sys2Proof/Tests/Slice0.lean ====
section
/-! SUPPORT. Small tests. Expected results come from the worked examples and vectors of spec/95_test_vectors.md (E1 to E8,
V1 to V73) or from the tables of spec/30_encoding.md, never from the model; the witnesses show that the hypotheses of each
statement can be met, at boundary values. -/

namespace Sys2Proof.Tests

open Sys2Proof.Machine

/-! ### Helpers -/

/-- A state from reset with one register set. -/
def withReg (i : Nat) (v : Byte) (s : State) (h : i < 8 := by decide) : State := { s with regs := s.regs.set i v }

/-- A state with bytes in memory from an address. -/
def withBytes (addr : Nat) (bytes : List Byte) (s : State) : State := { s with mem := s.mem.writeBytes addr bytes }

/-- A state about to fetch the given bytes at the given address. -/
def fetching (pc : Nat) (bytes : List Byte) (s : State) : State := { withBytes pc bytes s with pc := pc }

/-- The next state, if there is one. -/
def after : Answer → Option State
  | .next t    => some t
  | .fault _   => none
  | .refused _ => none

/-- What an expected field of the next state of `step` is. -/
def stepped {α : Type} (s : State) (view : State → α) : Option α := (after (step s)).map view

/-! ### Well-formedness: each check refuses an ill-formed term -/

theorem test_wellFormed_accepts_r7 : (Instr.ldi 7 255).wellFormed = true ∧ (Instr.add 7 7).wellFormed = true := by decide
theorem test_wellFormed_refuses_ldi_r8 : (Instr.ldi 8 0).wellFormed = false := by decide
theorem test_wellFormed_refuses_prn_r8 : (Instr.prn 8).wellFormed = false := by decide
theorem test_wellFormed_refuses_add_first : (Instr.add 8 0).wellFormed = false := by decide
theorem test_wellFormed_refuses_add_second : (Instr.add 0 8).wellFormed = false := by decide
theorem test_wellFormed_refuses_mul_first : (Instr.mul 255 0).wellFormed = false := by decide
theorem test_wellFormed_refuses_mul_second : (Instr.mul 0 10).wellFormed = false := by decide
theorem test_wellFormed_refuses_push_r8 : (Instr.push 8).wellFormed = false := by decide
theorem test_wellFormed_refuses_pop_r8 : (Instr.pop 8).wellFormed = false := by decide
theorem test_wellFormed_refuses_call_r8 : (Instr.call 8).wellFormed = false := by decide
theorem test_opcodes_default_wellFormed : Opcodes.specDefault.wellFormed = true := by decide
theorem test_opcodes_refuses_shared_byte :
    Opcodes.wellFormed { Opcodes.specDefault with ret := 0x01 } = false := by decide

/-! ### Decode: words written out bit by bit from R61 and R63 -/

theorem test_decode_hlt : decodeTableWord 8 0b00000001 = some .hlt := by decide
theorem test_decode_ret : decodeTableWord 8 0b00010001 = some .ret := by decide
theorem test_decode_prn : decodeTableWord 16 0b00000101_01000111 = some (.prn 5) := by decide
theorem test_decode_push : decodeTableWord 16 0b00000011_01000101 = some (.push 3) := by decide
theorem test_decode_pop : decodeTableWord 16 0b00000001_01000110 = some (.pop 1) := by decide
theorem test_decode_call : decodeTableWord 16 0b00000001_01010000 = some (.call 1) := by decide
theorem test_decode_ldi : decodeTableWord 24 0b11001000_00000010_10000010 = some (.ldi 2 200) := by decide
theorem test_decode_add : decodeTableWord 24 0b00000001_00000000_10100000 = some (.add 0 1) := by decide
theorem test_decode_mul : decodeTableWord 24 0b00000011_00000010_10100010 = some (.mul 2 3) := by decide
/-- A register field above 7 decodes (R64). -/
theorem test_decode_register_255 : decodeTableWord 16 0b11111111_01000101 = some (.push 255) := by decide
/-- V7: 0xA1 is no instruction. -/
theorem test_decode_rejects_A1 :
    decode Opcodes.specDefault ⟨0xA1, 0, 1⟩ = .error (.invalidOpcode 0xA1) := by decide
/-- R66: 0x00 is no instruction. -/
theorem test_decode_rejects_zero : decodeTableWord 8 0 = none := by decide
/-- R66: 247 bytes are invalid opcodes under the default map. -/
theorem test_invalid_opcode_count :
    ((List.range 256).filter fun n => (Opcodes.specDefault.lookup (BitVec.ofNat 8 n)).isNone).length = 247 := by
  decide +kernel
theorem test_encode_ldi : encode Opcodes.specDefault (.ldi 0 8) = [0x82, 0x00, 0x08] := by decide

/-- R68: the spec's example syntax, and the image of P1. -/
theorem test_asm_text : (AsmLine.instr (.ldi 2 200)).text = "LDI r2, 200" ∧ (AsmLine.instr (.push 9)).text = "PUSH r9" ∧
    (AsmLine.byte 0).text = ".byte 0" := by decide
theorem test_assemble_P1 :
    assemble Opcodes.specDefault [.instr (.ldi 0 8), .instr (.prn 0), .instr .hlt] = [0x82, 0x00, 0x08, 0x47, 0x00, 0x01] := by
  decide

/-! ### Fetch and decode phases (spec/95_test_vectors.md 2.1) -/

/-- V1: an instruction at 253 executes and leaves `pc = 256`. -/
theorem test_step_at_253 :
    stepped (fetching 253 [0x82, 0x00, 0x07] .reset) (fun t => (t.pc, t.regs[0])) = some (256, 7) := by decide
/-- V2: `pc = 256` raises AddressOutOfRange and stays. -/
theorem test_step_at_256 :
    stepped { State.reset with pc := 256 } (fun t => (t.pc, t.running, t.err)) =
      some (256, false, some .addressOutOfRange) := by decide
/-- V3: a HLT at 254 is not executed. -/
theorem test_step_hlt_at_254 :
    stepped (fetching 254 [0x01] .reset) (fun t => (t.pc, t.err)) = some (254, some .addressOutOfRange) := by decide
/-- V5: at 254 an invalid opcode byte still raises AddressOutOfRange. -/
theorem test_step_invalid_at_254 :
    stepped (fetching 254 [0xFF] .reset) (fun t => t.err) = some (some .addressOutOfRange) := by decide
/-- V6, P9: a zero byte raises InvalidOpcode. -/
theorem test_step_zero :
    stepped State.reset (fun t => (t.pc, t.running, t.err)) = some (0, false, some .invalidOpcode) := by decide
/-- V8: the bytes HLT ignores cause nothing. -/
theorem test_step_hlt_ignores_bytes :
    stepped (fetching 0 [0x01, 0xFF, 0xFF] .reset) (fun t => (t.pc, t.err)) = some (1, none) := by decide
/-- R88: a halted core has no step. -/
theorem test_step_halted : step { State.reset with running := false } = .fault .halted := by rfl

/-! ### The instructions, at most two each (spec/95_test_vectors.md 2.2 to 2.10) -/

/-- V11. -/
theorem test_hlt_at_253 :
    stepped (fetching 253 [0x01] .reset) (fun t => (t.running, t.pc, t.err)) = some (false, 254, none) := by decide
/-- V15: LDI r7 sets SP. -/
theorem test_ldi_sp : stepped (fetching 0 [0x82, 0x07, 0xF4] .reset) (fun t => (t.sp, t.pc)) = some (244, 3) := by decide
/-- V16. -/
theorem test_ldi_r8 :
    stepped (fetching 0 [0x82, 0x08, 0x01] .reset) (fun t => (t.regs, t.pc, t.err)) =
      some (Vector.replicate 8 0, 0, some .addressOutOfRange) := by decide
/-- V22: PRN appends at the end. -/
theorem test_prn_appends :
    stepped (fetching 0 [0x47, 0x02] { withReg 2 7 .reset with out := [1] }) (fun t => (t.out, t.pc)) =
      some ([1, 7], 2) := by decide
/-- V23: an error writes no output. -/
theorem test_prn_r8 :
    stepped (fetching 0 [0x47, 0x08] { State.reset with out := [1] }) (fun t => (t.out, t.pc)) = some ([1], 0) := by decide
/-- V24, E4. -/
theorem test_add_wraps :
    stepped (fetching 6 [0xA0, 0x00, 0x01] (withReg 0 250 (withReg 1 10 .reset))) (fun t => (t.regs[0], t.regs[1], t.pc)) =
      some (4, 10, 9) := by decide
/-- V32: the second field is checked too, and nothing is written. -/
theorem test_add_r8 :
    stepped (fetching 0 [0xA0, 0x00, 0x08] (withReg 0 1 .reset)) (fun t => (t.regs[0], t.pc, t.err)) =
      some (1, 0, some .addressOutOfRange) := by decide
/-- V36. -/
theorem test_mul_low_byte :
    stepped (fetching 0 [0xA2, 0x00, 0x01] (withReg 0 255 (withReg 1 255 .reset))) (fun t => (t.regs[0], t.regs[1])) =
      some (1, 255) := by decide
/-- V41: MUL r7, r7 squares SP. -/
theorem test_mul_sp : stepped (fetching 0 [0xA2, 0x07, 0x07] (withReg 7 2 .reset)) (fun t => t.sp) = some 4 := by decide
/-- V45: PUSH r7 stores the decremented SP. -/
theorem test_push_sp :
    stepped (fetching 100 [0x45, 0x07] (withReg 7 10 .reset)) (fun t => (t.sp, t.mem.read 9, t.pc)) =
      some (9, 9, 102) := by decide
/-- V48, P8: an error leaves SP undecremented and memory unwritten. -/
theorem test_push_r8 :
    stepped (fetching 0 [0x45, 0x08] (withReg 0 6 .reset)) (fun t => (t.sp, t.mem.read 255, t.pc, t.err)) =
      some (0, 0, 0, some .addressOutOfRange) := by decide
/-- V50: SP wraps from 255 to 0, and the cell keeps its value. -/
theorem test_pop_wraps :
    stepped (fetching 0 [0x46, 0x01] (withBytes 255 [42] (withReg 7 255 .reset)))
      (fun t => (t.regs[1], t.sp, t.mem.read 255)) = some (42, 0, 42) := by decide
/-- V52: POP r7 increments the value it loaded. -/
theorem test_pop_sp :
    stepped (fetching 0 [0x46, 0x07] (withBytes 100 [50] (withReg 7 100 .reset))) (fun t => t.sp) = some 51 := by decide
/-- V57: CALL r7 jumps to the decremented SP. -/
theorem test_call_sp :
    stepped (fetching 3 [0x50, 0x07] (withReg 7 50 .reset)) (fun t => (t.sp, t.mem.read 49, t.pc)) = some (49, 5, 49) := by
  decide
/-- V58: a CALL at 253 overwrites the last byte of its own fetch window. -/
theorem test_call_at_253 :
    stepped (fetching 253 [0x50, 0x02] .reset) (fun t => (t.sp, t.mem.read 255, t.pc)) = some (255, 255, 0) := by decide
/-- V62. -/
theorem test_ret :
    stepped (fetching 20 [0x11] (withBytes 255 [8] (withReg 7 255 .reset))) (fun t => (t.pc, t.sp)) = some (8, 0) := by
  decide
/-- V63: RET with nothing pushed jumps to the byte at 0. -/
theorem test_ret_unpushed :
    stepped (fetching 20 [0x11] (withBytes 0 [0x82] .reset)) (fun t => (t.pc, t.sp)) = some (130, 1) := by decide

/-! ### The host's operations -/

/-- V67. -/
theorem test_load_last_cell :
    (load State.reset [0x2A] 255).toOption.map (fun t => (t.mem.read 255, t.pc)) = some (42, 0) := by decide
/-- V68. -/
theorem test_load_too_large : load State.reset [1, 2] 255 = .error .programTooLarge := by rfl
/-- E8. -/
theorem test_load_300 : load State.reset (List.replicate 300 1) = .error .programTooLarge :=
  if_pos (by rw [List.length_replicate]; decide)
/-- V69: an empty image fits anywhere up to 256. -/
theorem test_load_empty : load State.reset [] 256 = .ok State.reset := by rfl
/-- V72: run on a halted core takes no step. -/
theorem test_run_halted :
    run 5 { State.reset with running := false, pc := 6 } = .returned none { State.reset with running := false, pc := 6 } := by
  rfl
/-- R103: the text of PRN's values (V19, V20). -/
theorem test_prn_text : prnLine Config.specDefault 0 = [0x30, 0x0A] ∧
    prnLine Config.specDefault 255 = [0x32, 0x35, 0x35, 0x0A] := by decide
/-- R186. -/
theorem test_error_number :
    (inspect Config.specDefault ⟨State.reset.raise .addressOutOfRange, false⟩).map (·.errCode) = some 3 := by decide
/-- R33: before the first run the host can inspect; during one it cannot, nor load (R213) nor call again. -/
theorem test_no_inspection_during_run :
    (inspect Config.specDefault Session.reset).map (·.pc) = some 0 ∧
    (callRun Session.reset).bind (inspect Config.specDefault) = none ∧
    (callRun Session.reset).bind (hostLoad · [1] 0) = none ∧ (callRun Session.reset).bind callRun = none := by decide
/-- R33, R100, R214: after a run of HLT returns the host can inspect again. -/
theorem test_inspection_after_run :
    let h := (proceed Opcodes.specDefault 1 ⟨withBytes 0 [0x01] .reset, true⟩).1
    (inspect Config.specDefault h).map (fun v => (v.pc, v.running, v.errCode)) = some (1, false, 0) := by decide

/-- A word the host places is fetched and run by the first step after reset. -/
theorem test_withFetchWord :
    stepped (State.reset.withFetchWord 24 0b11001000_00000010_10000010) (fun t => (t.regs[2], t.pc)) = some (200, 3) := by
  decide

/-! ### Witnesses: the hypotheses of each statement can be met -/

/-- A running core at 253, the highest address an instruction executes at, about to load 7 into r0. -/
def ldiAt253 : State := fetching 253 [0x82, 0x00, 0x07] .reset

/-- A running core at 251 about to push r7 onto the stack at 255, two bytes of the next fetch window. -/
def pushAt251 : State := fetching 251 [0x45, 0x07] .reset

/-- A running core about to execute PUSH r0, RET for ever: r0 holds 251, the PUSH's address. -/
def endless : State := fetching 251 [0x45, 0x00, 0x11] (withReg 0 251 .reset)

theorem ldiAt253_inv : ldiAt253.Inv := ⟨by decide, by decide, fun _ => rfl, by decide⟩
theorem reset_inv : State.reset.Inv := ⟨by decide, by decide, fun _ => rfl, by decide⟩

theorem witness_StepKeepsLegalStates : ldiAt253.Inv ∧ ∃ t, stepWith Opcodes.specDefault ldiAt253 = .next t :=
  ⟨ldiAt253_inv, _, rfl⟩
theorem witness_LoadKeepsLegalStates : State.reset.Inv ∧ ∃ t, load State.reset [1, 2] 254 = .ok t := ⟨reset_inv, _, rfl⟩
theorem witness_RunReturnsLegalHaltedStates_error :
    State.reset.Inv ∧ ∃ t, runWith Opcodes.specDefault 1 State.reset = .returned (some .invalidOpcode) t := ⟨reset_inv, _, rfl⟩
theorem witness_RunReturnsLegalHaltedStates_success :
    (fetching 0 [0x01] .reset).Inv ∧ ∃ t, runWith Opcodes.specDefault 1 (fetching 0 [0x01] .reset) = .returned none t :=
  ⟨⟨by decide, by decide, fun _ => rfl, by decide⟩, _, rfl⟩
theorem witness_RegisterReadContract :
    regRead 7 (withReg 7 9 .reset) = .ok 9 ∧ regRead 8 (withReg 7 9 .reset) = .error .addressOutOfRange := ⟨rfl, rfl⟩
theorem witness_RegisterWriteContract :
    (∃ t, regWrite 7 (-1) State.reset = .ok t ∧ t.regs[7] = 255) ∧
    regWrite 8 0 State.reset = .error .addressOutOfRange := ⟨⟨_, rfl, by decide⟩, rfl⟩
theorem witness_MemoryReadContract :
    memRead 255 (withBytes 255 [9] .reset) = .ok 9 ∧ memRead 256 State.reset = .error .addressOutOfRange := ⟨rfl, rfl⟩
theorem witness_MemoryWriteContract :
    (∃ t, memWrite 255 257 State.reset = .ok t ∧ t.mem.read 255 = 1) ∧
    memWrite 256 0 State.reset = .error .addressOutOfRange := ⟨⟨_, rfl, by decide⟩, rfl⟩
theorem witness_EqualReadsMeanEqualMemories :
    let m : Memory := Memory.write [] 255 3
    let n : Memory := [(255, 3)]
    m.wf ∧ n.wf ∧ ∀ addr, m.read addr = n.read addr := ⟨by decide, by decide, fun _ => rfl⟩
theorem witness_DecodeEncodeRoundTrip : Opcodes.specDefault.wellFormed = true := by decide
theorem witness_EncodeOfDecodedGivesBytesRead :
    decode Opcodes.specDefault ⟨0xA0, 0xFF, 0x08⟩ = .ok (.add 255 8) := by decide
theorem witness_WholeOpcodeByteSelects :
    Opcodes.specDefault.wellFormed = true ∧ Opcodes.specDefault.byteOf .mul = 0xA2 ∧
    ∀ m, Opcodes.specDefault.byteOf m ≠ 0xA1 := ⟨by decide, rfl, fun m => by cases m <;> decide⟩
theorem witness_IgnoredAndInvalidBytes : (0xA1 : Byte) ∉ ([0x01, 0x11, 0x45, 0x46, 0x47, 0x50, 0x82, 0xA0, 0xA2] : List Byte) ∧
    (0x11 : Byte) ∈ ([0x01, 0x11, 0x45, 0x46, 0x47, 0x50, 0x82, 0xA0, 0xA2] : List Byte) := by decide
theorem witness_StepRunsTheDecodedInstruction :
    ldiAt253.running = true ∧ ldiAt253.pc ≤ 253 ∧
    decode Opcodes.specDefault ⟨ldiAt253.mem.read ldiAt253.pc, ldiAt253.mem.read (ldiAt253.pc + 1),
      ldiAt253.mem.read (ldiAt253.pc + 2)⟩ = .ok (.ldi 0 7) := by decide
theorem witness_FetchReadsThreeBytesAtPc : ldiAt253.running = true ∧ ldiAt253.pc ≤ 253 := by decide
theorem witness_FetchPastEndRaises :
    (fetching 254 [0x01] .reset).running = true ∧ 254 ≤ (fetching 254 [0x01] .reset).pc := by decide
theorem witness_InvalidOpcodeRaises :
    State.reset.running = true ∧ State.reset.pc ≤ 253 ∧
    ∀ m, Opcodes.specDefault.byteOf m ≠ State.reset.mem.read State.reset.pc :=
  ⟨rfl, by decide, fun m => by cases m <;> decide⟩
theorem witness_GenericAdvance : (Instr.add 7 7).wellFormed = true ∧ (Instr.call 7).wellFormed = true := by decide
theorem witness_CoreStatesAndTransitions_running : State.reset.running = true ∧ State.reset.err = none := by decide
theorem witness_CoreStatesAndTransitions_halts :
    ∃ t, stepWith Opcodes.specDefault (fetching 253 [0x01] .reset) = .next t ∧ t.status = .halted := ⟨_, rfl, rfl⟩
theorem witness_CoreStatesAndTransitions_halted : (State.reset.clearRunning).running = false := rfl
theorem witness_ErrorsArePrecise :
    State.reset.err = none ∧ ∃ t, stepWith Opcodes.specDefault State.reset = .next t ∧ t.err = some .invalidOpcode :=
  ⟨rfl, _, rfl, rfl⟩
theorem witness_ErrorPriority_fetch :
    (fetching 254 [0xFF] .reset).err = none ∧ ∃ t, stepWith Opcodes.specDefault (fetching 254 [0xFF] .reset) = .next t ∧
      t.err = some .addressOutOfRange := ⟨rfl, _, rfl, rfl⟩
theorem witness_ErrorPriority_operand :
    ∃ t, stepWith Opcodes.specDefault (fetching 253 [0xA2, 0x00, 0x08] .reset) = .next t ∧
      t.err = some .addressOutOfRange := ⟨_, rfl, rfl⟩
theorem witness_ErrorPriority_none : ∃ t, stepWith Opcodes.specDefault ldiAt253 = .next t ∧ t.err = none := ⟨_, rfl, rfl⟩
theorem witness_OutputIsAppendOnly :
    ∃ t, stepWith Opcodes.specDefault (fetching 253 [0x47, 0x07] .reset) = .next t ∧ t.out = [0] := ⟨_, rfl, rfl⟩
theorem witness_RegisterInstructionsIgnoreMemory :
    (Instr.add 7 255).mnemonic ∈ [Mnemonic.ldi, .prn, .add, .mul, .hlt] := by decide
theorem witness_EncodedInstructionRunsUnderEveryOpc :
    Opcodes.specDefault.wellFormed = true ∧ ldiAt253.running = true ∧ ldiAt253.pc ≤ 253 ∧
    ∀ (k : Nat) (h : k < (encode Opcodes.specDefault (.ldi 0 7)).length),
      ldiAt253.mem.read (ldiAt253.pc + k) = (encode Opcodes.specDefault (.ldi 0 7))[k] := by decide
theorem witness_PlacedWordIsTheNextInstruction :
    ldiAt253.running = true ∧ ldiAt253.pc ≤ 253 ∧ decodeTableWord 8 0x01 = some .hlt := by decide
theorem witness_HltRule :
    Opcodes.specDefault.wellFormed = true ∧ (fetching 254 [0x01] .reset).running = true ∧
    254 ≤ (fetching 254 [0x01] .reset).pc := by decide
theorem witness_HltRule_run :
    (fetching 253 [0x01] .reset).running = true ∧ (fetching 253 [0x01] .reset).err = none ∧
    (fetching 253 [0x01] .reset).pc ≤ 253 ∧
    (fetching 253 [0x01] .reset).mem.read (fetching 253 [0x01] .reset).pc = Opcodes.specDefault.hlt := by decide
theorem witness_HltRule_only :
    State.reset.running = true ∧ ∃ t, exec .hlt State.reset = .next t ∧ t.running = false ∧ t.err = none :=
  ⟨rfl, _, rfl, rfl, rfl⟩
/-- The field bounds of LDI, PRN, ADD, MUL, PUSH, POP and CALL: 7 names a register and 8 none, under an injective OPC. -/
theorem witness_field_rules :
    Opcodes.specDefault.wellFormed = true ∧ (7 : Byte).toNat < 8 ∧ 7 < (8 : Byte).toNat := by decide
theorem witness_LdiRule : ∃ t, exec (.ldi 7 255) State.reset = .next t ∧ t.regs[7] = 255 := ⟨_, rfl, by decide⟩
theorem witness_PrnRule : ∃ t, exec (.prn 7) State.reset = .next t ∧ t.out = [0] := ⟨_, rfl, by decide⟩
theorem witness_AddRule : ∃ t, exec (.add 7 7) (withReg 7 128 .reset) = .next t ∧ t.regs[7] = 0 := ⟨_, rfl, by decide⟩
theorem witness_MulRule : ∃ t, exec (.mul 7 7) (withReg 7 16 .reset) = .next t ∧ t.regs[7] = 0 := ⟨_, rfl, by decide⟩
theorem witness_PushRule : ∃ t, exec (.push 7) State.reset = .next t ∧ t.mem.read 255 = 255 := ⟨_, rfl, by decide⟩
theorem witness_PopRule : ∃ t, exec (.pop 7) State.reset = .next t ∧ t.regs[7] = 1 := ⟨_, rfl, by decide⟩
theorem witness_CallRule : ∃ t, exec (.call 7) State.reset = .next t ∧ t.pc = 255 := ⟨_, rfl, by decide⟩
theorem witness_RetRule :
    Opcodes.specDefault.wellFormed = true ∧ (fetching 255 [0x11] .reset).running = true ∧
    254 ≤ (fetching 255 [0x11] .reset).pc := by decide
theorem witness_BadRegisterFieldRaises :
    Opcodes.specDefault.wellFormed = true ∧ (Instr.add 7 8).wellFormed = false ∧ (Instr.add 7 7).wellFormed = true := by
  decide
theorem witness_AluApplyRule : (7 : Byte).toNat < 8 ∧ (0 : Byte).toNat < 8 := by decide
theorem witness_UnsupportedOperationIsUnreachable :
    State.reset.err ≠ some .unsupportedOperation ∧ ∃ t, stepWith Opcodes.specDefault State.reset = .next t :=
  ⟨by decide, _, rfl⟩
theorem witness_FrameOfRegisterInstructions :
    (∃ t, exec .hlt State.reset = .next t) ∧ (∃ t, exec (.ldi 7 1) State.reset = .next t) ∧
    (∃ t, exec (.prn 7) State.reset = .next t) ∧ (∃ t, exec (.add 7 7) State.reset = .next t) ∧
    (∃ t, exec (.mul 7 0) State.reset = .next t) := ⟨⟨_, rfl⟩, ⟨_, rfl⟩, ⟨_, rfl⟩, ⟨_, rfl⟩, ⟨_, rfl⟩⟩
theorem witness_FrameOfStackReaders :
    (∃ t, exec (.pop 7) State.reset = .next t) ∧ ∃ t, exec .ret State.reset = .next t := ⟨⟨_, rfl⟩, ⟨_, rfl⟩⟩
theorem witness_FrameOfStackWriters :
    (∃ t, exec (.push 7) State.reset = .next t) ∧ ∃ t, exec (.call 7) State.reset = .next t := ⟨⟨_, rfl⟩, ⟨_, rfl⟩⟩
theorem witness_PushThenPopRestores : (7 : Byte).toNat < 8 := by decide
theorem witness_StackPointerWraps_down : State.reset.sp = 0 ∧ ∃ t, moveSp (-1) State.reset = .ok t := ⟨by decide, _, rfl⟩
theorem witness_StackPointerWraps_up :
    (withReg 7 255 .reset).sp = 255 ∧ ∃ t, moveSp 1 (withReg 7 255 .reset) = .ok t := ⟨by decide, _, rfl⟩
theorem witness_CallThenRetReturns :
    (7 : Byte).toNat < 8 ∧ ldiAt253.pc ≤ 253 ∧ ∃ t, exec (.call 7) ldiAt253 = .next t ∧ t.mem.read t.sp.toNat = 255 :=
  ⟨by decide, by decide, _, rfl, by decide⟩
theorem witness_StoreIsSeenByNextFetch :
    Opcodes.specDefault.wellFormed = true ∧ (7 : Byte).toNat < 8 ∧ pushAt251.running = true ∧ pushAt251.pc ≤ 251 ∧
    pushAt251.mem.read pushAt251.pc = Opcodes.specDefault.push ∧ pushAt251.mem.read (pushAt251.pc + 1) = 7 := by decide
theorem witness_PrnText : (7 : Byte).toNat < 8 ∧ decimalDigits 10 = [1, 0] ∧ decimalDigits 100 = [1, 0, 0] := by decide
/-- A Machine between the construction and the first run, with HLT loaded at 255 (the last address). -/
def loaded : Session := ⟨withBytes 255 [0x01] .reset, false⟩
/-- A Machine whose run of a HLT at 253 is in progress. -/
def halting : Session := ⟨fetching 253 [0x01] .reset, true⟩

theorem loaded_inv : loaded.Inv := fun _ _ => ⟨_, rfl⟩
theorem halting_inv : halting.Inv := fun h => by cases h

theorem witness_InspectionReadsTheState_idle : loaded.inRun = false ∧ loaded.core.mem.read 255 = 1 ∧
    (∃ v, inspect Config.specDefault loaded = some v) ∧ callRun loaded = some ⟨loaded.core, true⟩ :=
  ⟨rfl, by decide, ⟨_, rfl⟩, rfl⟩
theorem witness_InspectionReadsTheState_load :
    loaded.Inv ∧ ∃ h', hostLoad loaded [1] 255 = some (.ok h') := ⟨loaded_inv, _, rfl⟩
theorem witness_InspectionReadsTheState_blocked :
    halting.inRun = true ∧ halting.Inv ∧ (proceed Opcodes.specDefault 0 halting).2 = .blocked := ⟨rfl, halting_inv, rfl⟩
theorem witness_InspectionReadsTheState_returned :
    halting.inRun = true ∧ (proceed Opcodes.specDefault 1 halting).2 = .returned none ∧
    (proceed Opcodes.specDefault 1 halting).1.inRun = false := ⟨rfl, rfl, rfl⟩
theorem witness_LoadContract :
    256 < 255 + [(1 : Byte), 2].length ∧ 254 + [(1 : Byte), 2].length ≤ 256 := by decide
theorem witness_RunContract :
    State.reset.running = true ∧ (∃ t, runWith Opcodes.specDefault 0 State.reset = .inProgress t) ∧
    ∃ t, runWith Opcodes.specDefault 1 State.reset = .returned (some .invalidOpcode) t := ⟨rfl, ⟨_, rfl⟩, ⟨_, rfl⟩⟩
theorem witness_HaltedCoreStaysHalted : (State.reset.raise .invalidOpcode).running = false := rfl
theorem witness_RunResultIsUnique :
    ∃ t, runWith Opcodes.specDefault 1 (fetching 0 [0x01] .reset) = .returned none t := ⟨_, rfl⟩
theorem witness_EndlessRun :
    Opcodes.specDefault.wellFormed = true ∧ (0 : Byte).toNat < 7 ∧ endless.running = true ∧ endless.pc ≤ 251 ∧
    endless.regs[(0 : Byte).toNat].toNat = endless.pc ∧ endless.mem.read endless.pc = Opcodes.specDefault.push ∧
    endless.mem.read (endless.pc + 1) = 0 ∧ endless.mem.read (endless.pc + 2) = Opcodes.specDefault.ret ∧
    ((endless.sp - 1).toNat < endless.pc ∨ endless.pc + 2 < (endless.sp - 1).toNat) := by decide
theorem witness_EntryPointIsAddressZero :
    ([] : List Byte).length ≤ 256 ∧ (List.replicate 256 (1 : Byte)).length ≤ 256 :=
  ⟨Nat.zero_le _, List.length_replicate.le⟩
theorem witness_AssembledLineRunsAtItsAddress :
    Opcodes.specDefault.wellFormed = true ∧
    (∃ t, load State.reset (assemble Opcodes.specDefault ([.byte 9] ++ .instr (.push 7) :: [.instr .ret])) = .ok t) ∧
    State.reset.running = true ∧ (assemble Opcodes.specDefault [.byte 9]).length ≤ 253 :=
  ⟨by decide, ⟨_, rfl⟩, rfl, by decide⟩

end Sys2Proof.Tests
end

section
/-! Proofs of the scope family (spec/00_scope.md): an instruction's encoding, read as the first bytes of the fetch window,
decodes to that instruction under every injective OPC, and a step runs what decode reads. -/

namespace Sys2Proof

/-- Under an injective OPC each mnemonic is found by its own byte (R7, R62). -/
theorem Opcodes.lookup_byteOf {opc : Opcodes} (h : opc.wellFormed = true) (m : Mnemonic) :
    opc.lookup (opc.byteOf m) = some m := by
  cases hl : opc.lookup (opc.byteOf m) with
  | none => exact absurd rfl (Opcodes.lookup_eq_none.mp hl m)
  | some n => rw [Opcodes.byteOf_injective h (Opcodes.byteOf_of_lookup hl)]

@[simp] theorem length_encode (opc : Opcodes) (i : Instr) : (encode opc i).length = i.mnemonic.width := by
  cases i <;> rfl

/-- An instruction is rebuilt from any two fetched operand bytes that begin with its own (R61, R66). -/
theorem Mnemonic.instr_of_operandBytes_prefix {i : Instr} {a b : Byte} (h : i.operandBytes <+: [a, b]) :
    i.mnemonic.instr a b = i := by
  cases i <;> simp_all [Instr.operandBytes, Instr.mnemonic, Mnemonic.instr, List.cons_prefix_cons]

/-- A fetch window that begins with an instruction's encoding decodes to it, whatever bytes follow (R7, R62, R66). -/
theorem decode_of_encode_prefix {opc : Opcodes} (h : opc.wellFormed = true) {i : Instr} {w : FetchWindow}
    (hw : encode opc i <+: w.toBytes) : decode opc w = .ok i := by
  obtain ⟨hop, hargs⟩ := List.cons_prefix_cons.mp hw
  rw [decode_of_lookup (hop ▸ Opcodes.lookup_byteOf h i.mnemonic), Mnemonic.instr_of_operandBytes_prefix hargs]

end Sys2Proof

namespace Sys2Proof.Machine

/-- The three bytes at `pc` begin with an instruction's encoding as soon as memory holds it there (R45, R80). -/
theorem encode_prefix_fetchWindow {opc : Opcodes} {i : Instr} {s : State}
    (h : ∀ (k : Nat) (hk : k < (encode opc i).length), s.mem.read (s.pc + k) = (encode opc i)[k]) :
    encode opc i <+: (⟨s.mem.read s.pc, s.mem.read (s.pc + 1), s.mem.read (s.pc + 2)⟩ : FetchWindow).toBytes := by
  have hlen : (encode opc i).length ≤ 3 := by simpa using (Mnemonic.width_bounds i.mnemonic).2
  refine List.prefix_iff_getElem.mpr ⟨hlen, fun k hk => ?_⟩
  rw [← h k hk]
  match k, hk.trans_le hlen with
  | 0, _ => rfl
  | 1, _ => rfl
  | 2, _ => rfl

/-- A step of a running core inside memory executes what its three bytes at `pc` decode to (R80, R83, R85). -/
theorem stepWith_of_decode {opc : Opcodes} {s : State} {i : Instr} (hr : s.running = true) (hpc : s.pc ≤ 253)
    (hd : decode opc ⟨s.mem.read s.pc, s.mem.read (s.pc + 1), s.mem.read (s.pc + 2)⟩ = .ok i) :
    stepWith opc s = exec i s := by
  have hf : fetchDecode opc s = .ok i := by
    simp [fetchDecode, fetch_of_le hpc, decodePhase, hd, bind, Except.bind]
  simp [stepWith, hr, hf]

/-- Settles O30: the fetch window begins with the encoding, so it decodes to the instruction, which the step executes. -/
theorem encodedInstructionRunsUnderEveryOpc : Obligations.EncodedInstructionRunsUnderEveryOpc :=
  fun _ hwf _ _ hr hpc hmem =>
    stepWith_of_decode hr hpc (decode_of_encode_prefix hwf (encode_prefix_fetchWindow hmem))

end Sys2Proof.Machine
end

section
/-! What execution does, said once: the meanings of `exec` with the model's primitives evaluated, as a relation whose
case analysis is the inversion of `exec`. -/

namespace Sys2Proof.Machine

/-- The registers after the decrement with which PUSH and CALL begin (R142, R160). -/
abbrev State.decSp (s : State) : Vector Byte 8 := s.regs.set 7 (s.regs[7] - 1)

/-- What each instruction does, with the model's primitives evaluated: `Executes s i t` says that executing `i` in `s`
leads to `t`. `exec_eq_next_iff` ties it to `exec`, and its case analysis is the inversion of `exec`. -/
inductive Executes (s : State) : Instr → State → Prop
  /-- R64: a register field above 7. -/
  | raised {i : Instr} (hi : i.wellFormed = false) : Executes s i (s.raise .addressOutOfRange)
  /-- R100. -/
  | hlt : Executes s .hlt { s with running := false, pc := s.pc + 1 }
  /-- R101. -/
  | ldi {a b : Byte} (ha : a.toNat < 8) :
      Executes s (.ldi a b) { s with regs := s.regs.set a.toNat b, pc := s.pc + 3 }
  /-- R102. -/
  | prn {a : Byte} (ha : a.toNat < 8) :
      Executes s (.prn a) { s with out := s.out ++ [s.regs[a.toNat]], pc := s.pc + 2 }
  /-- R124. -/
  | add {a b : Byte} (ha : a.toNat < 8) (hb : b.toNat < 8) :
      Executes s (.add a b)
        { s with regs := s.regs.set a.toNat (s.regs[a.toNat] + s.regs[b.toNat]), pc := s.pc + 3 }
  /-- R125. -/
  | mul {a b : Byte} (ha : a.toNat < 8) (hb : b.toNat < 8) :
      Executes s (.mul a b)
        { s with regs := s.regs.set a.toNat (s.regs[a.toNat] * s.regs[b.toNat]), pc := s.pc + 3 }
  /-- R142: the register is read after the decrement. -/
  | push {a : Byte} (ha : a.toNat < 8) :
      Executes s (.push a)
        { s with regs := s.decSp, mem := s.mem.write s.decSp[7].toNat s.decSp[a.toNat], pc := s.pc + 2 }
  /-- R143: SP is incremented after the register write. -/
  | pop {a : Byte} (ha : a.toNat < 8) :
      Executes s (.pop a)
        { s with
          regs := (s.regs.set a.toNat (s.mem.read s.regs[7].toNat)).set 7
            ((s.regs.set a.toNat (s.mem.read s.regs[7].toNat))[7] + 1)
          pc := s.pc + 2 }
  /-- R160: the target register is read after the decrement. -/
  | call {a : Byte} (ha : a.toNat < 8) :
      Executes s (.call a)
        { s with
          regs := s.decSp
          mem := s.mem.write s.decSp[7].toNat (BitVec.ofNat 8 (s.pc + 2))
          pc := s.decSp[a.toNat].toNat }
  /-- R161. -/
  | ret :
      Executes s .ret
        { s with pc := (s.mem.read s.regs[7].toNat).toNat, regs := s.regs.set 7 (s.regs[7] + 1) }

theorem ok_bind {ε α β : Type} (x : α) (f : α → Except ε β) : (Except.ok x >>= f) = f x := rfl

theorem error_bind {ε α β : Type} (e : ε) (f : α → Except ε β) : (Except.error e >>= f) = .error e := rfl

theorem readField_of_lt {a : Byte} (h : a.toNat < 8) (s : State) : readField a s = .ok s.regs[a.toNat] :=
  regRead_of_lt h s

theorem readField_of_ge {a : Byte} (h : 8 ≤ a.toNat) (s : State) : readField a s = .error .addressOutOfRange :=
  regRead_of_ge h s

theorem writeField_of_lt {a : Byte} (h : a.toNat < 8) (v : Int) (s : State) :
    writeField a v s = .ok { s with regs := s.regs.set a.toNat (narrow v) } := regWrite_of_lt h v s

theorem writeField_of_ge {a : Byte} (h : 8 ≤ a.toNat) (v : Int) (s : State) :
    writeField a v s = .error .addressOutOfRange := regWrite_of_ge h v s

@[simp] theorem narrow_immediate (b : Byte) : narrow (immediate b) = b := narrow_toNat_cast b

/-- The unit's one write when both fields name registers (R120). -/
theorem aluApply_of_lt {a b : Byte} (ha : a.toNat < 8) (hb : b.toNat < 8) (op : AluOp) (s : State) :
    aluApply (some op) a b s =
      .ok { s with regs := s.regs.set a.toNat (narrow (aluExact op s.regs[a.toNat] s.regs[b.toNat])) } := by
  simp only [aluApply, readField_of_lt ha, readField_of_lt hb, writeField_of_lt ha, ok_bind]

/-- The unit raises as soon as one of its fields names no register (R64). -/
theorem aluApply_of_ge {a b : Byte} (h : 8 ≤ a.toNat ∨ 8 ≤ b.toNat) (op : AluOp) (s : State) :
    aluApply (some op) a b s = .error .addressOutOfRange := by
  obtain ⟨_, ha, hb, _⟩ | ⟨hnone, _⟩ | ⟨_, _, he⟩ := aluApply_cases (some op) a b s
  · omega
  · cases hnone
  · exact he

/-- R64: an instruction with a field above 7 raises AddressOutOfRange, and has done nothing else by then (R188). -/
theorem exec_of_not_wellFormed {i : Instr} (hi : i.wellFormed = false) (s : State) :
    exec i s = .next (s.raise .addressOutOfRange) := by
  cases i with
  | hlt => cases hi
  | ret => cases hi
  | ldi a b =>
    have ha : 8 ≤ a.toNat := (namesRegister_false_iff a).mp hi
    simp only [exec, execLdi, writeField_of_ge ha, error_bind, settle_error]
  | prn a =>
    have ha : 8 ≤ a.toNat := (namesRegister_false_iff a).mp hi
    simp only [exec, execPrn, readField_of_ge ha, error_bind, settle_error]
  | add a b =>
    have hab : 8 ≤ a.toNat ∨ 8 ≤ b.toNat := by simpa [Instr.wellFormed, or_iff_not_imp_left] using hi
    simp only [exec, execAdd, aluRequest, aluApply_of_ge hab, error_bind, settle_error]
  | mul a b =>
    have hab : 8 ≤ a.toNat ∨ 8 ≤ b.toNat := by simpa [Instr.wellFormed, or_iff_not_imp_left] using hi
    simp only [exec, execMul, aluRequest, aluApply_of_ge hab, error_bind, settle_error]
  | push a =>
    have ha : 8 ≤ a.toNat := (namesRegister_false_iff a).mp hi
    simp only [exec, execPush, checkField_of_ge ha, error_bind, settle_error]
  | pop a =>
    have ha : 8 ≤ a.toNat := (namesRegister_false_iff a).mp hi
    simp only [exec, execPop, checkField_of_ge ha, error_bind, settle_error]
  | call a =>
    have ha : 8 ≤ a.toNat := (namesRegister_false_iff a).mp hi
    simp only [exec, execCall, checkField_of_ge ha, error_bind, settle_error]

/-- The meanings of `exec`, evaluated. -/
theorem Executes.exec_eq {s t : State} {i : Instr} (h : Executes s i t) : exec i s = .next t := by
  cases h with
  | raised hi => exact exec_of_not_wellFormed hi s
  | hlt => rfl
  | ldi ha =>
    simp only [exec, execLdi, writeField_of_lt ha, narrow_immediate, ok_bind]
    rfl
  | prn ha =>
    simp only [exec, execPrn, readField_of_lt ha, ok_bind]
    rfl
  | add ha hb =>
    simp only [exec, execAdd, aluRequest, aluApply_of_lt ha hb, narrow_aluExact_add, ok_bind]
    rfl
  | mul ha hb =>
    simp only [exec, execMul, aluRequest, aluApply_of_lt ha hb, narrow_aluExact_mul, ok_bind]
    rfl
  | push ha =>
    simp only [exec, execPush, checkField_of_lt ha, moveSp_neg_one, readField_of_lt ha, memWrite_byte,
      narrow_toNat_cast, ok_bind]
    rfl
  | pop ha =>
    simp only [exec, execPop, checkField_of_lt ha, memRead_byte, writeField_of_lt ha, narrow_toNat_cast, moveSp_one,
      ok_bind]
    rfl
  | call ha =>
    simp only [exec, execCall, checkField_of_lt ha, moveSp_neg_one, readField_of_lt ha, memWrite_byte,
      narrow_natCast, ok_bind]
    rfl
  | ret =>
    simp only [exec, execRet, memRead_byte, moveSp_one, ok_bind]
    rfl

/-- Every instruction executes in every state. -/
theorem exists_executes (i : Instr) (s : State) : ∃ t, Executes s i t := by
  cases hi : i.wellFormed with
  | false => exact ⟨_, .raised hi⟩
  | true =>
    cases i with
    | hlt => exact ⟨_, .hlt⟩
    | ldi a b => exact ⟨_, .ldi ((namesRegister_iff a).mp hi)⟩
    | prn a => exact ⟨_, .prn ((namesRegister_iff a).mp hi)⟩
    | add a b =>
      obtain ⟨ha, hb⟩ : a.toNat < 8 ∧ b.toNat < 8 := by simpa [Instr.wellFormed] using hi
      exact ⟨_, .add ha hb⟩
    | mul a b =>
      obtain ⟨ha, hb⟩ : a.toNat < 8 ∧ b.toNat < 8 := by simpa [Instr.wellFormed] using hi
      exact ⟨_, .mul ha hb⟩
    | push a => exact ⟨_, .push ((namesRegister_iff a).mp hi)⟩
    | pop a => exact ⟨_, .pop ((namesRegister_iff a).mp hi)⟩
    | call a => exact ⟨_, .call ((namesRegister_iff a).mp hi)⟩
    | ret => exact ⟨_, .ret⟩

/-- `Executes` is what `exec` answers, so its cases are all that an instruction can do. -/
theorem exec_eq_next_iff {i : Instr} {s t : State} : exec i s = .next t ↔ Executes s i t := by
  refine ⟨fun h => ?_, Executes.exec_eq⟩
  obtain ⟨u, hu⟩ := exists_executes i s
  cases h.symm.trans hu.exec_eq
  exact hu

end Sys2Proof.Machine
end

section
/-! Proofs of the state family (spec/10_state.md): what execution keeps, the state invariant, who writes and reads the
status and the output, the register contracts, the canonical memory list, and the host's view. -/

namespace Sys2Proof.Machine

/-! ### What execution keeps -/

section
variable {i : Instr} {s t : State}

/-- Memory stays canonical: only PUSH and CALL write it, at the value of SP (R44). -/
theorem Executes.mem_wf (h : Executes s i t) (hs : s.mem.wf) : t.mem.wf := by
  cases h with
  | push => exact hs.write (BitVec.isLt _) _
  | call => exact hs.write (BitVec.isLt _) _
  | _ => exact hs

/-- A fetched instruction leaves `pc` at most 256: it advances by 1 to 3, or takes the value of a byte (R24). -/
theorem Executes.pc_le (h : Executes s i t) (hs : s.pc ≤ 253) : t.pc ≤ 256 := by
  cases h with
  | call => exact (BitVec.isLt _).le
  | ret => exact (BitVec.isLt _).le
  | _ => dsimp only [State.raise_pc]; omega

/-- The flag and `ERR` are kept, or HLT clears the flag, or AddressOutOfRange is raised (R26, R29). -/
theorem Executes.status (h : Executes s i t) :
    SameStatus s t ∨ (i = .hlt ∧ t.running = false ∧ t.err = s.err) ∨ t = s.raise .addressOutOfRange := by
  cases h with
  | raised => exact .inr (.inr rfl)
  | hlt => exact .inr (.inl ⟨rfl, rfl, rfl⟩)
  | _ => exact .inl ⟨rfl, rfl⟩

/-- Only PRN appends to the output, and it appends the register it names (R30). -/
theorem Executes.out (h : Executes s i t) :
    t.out = s.out ∨ ∃ (a : Byte) (ha : a.toNat < 8), i = .prn a ∧ t.out = s.out ++ [s.regs[a.toNat]] := by
  cases h with
  | prn ha => exact .inr ⟨_, ha, rfl, rfl⟩
  | _ => exact .inl rfl

end

/-! ### The state invariant -/

/-- The error of a fetch or decode phase is never UnsupportedOperation (R187). -/
theorem fetchDecode_error_supported {opc : Opcodes} {s : State} {e : ErrorKind}
    (h : fetchDecode opc s = .error e) : e ≠ .unsupportedOperation := by
  rintro rfl
  obtain ⟨_, h'⟩ | ⟨_, _, h'⟩ | ⟨_, _, _, h'⟩ := fetchDecode_cases opc s <;> cases h.symm.trans h'

/-- An instruction is fetched only from `pc` 0 to 253 (R81). -/
theorem pc_le_of_fetchDecode_ok {opc : Opcodes} {s : State} {i : Instr} (h : fetchDecode opc s = .ok i) :
    s.pc ≤ 253 := by
  obtain ⟨_, h'⟩ | ⟨_, _, h'⟩ | ⟨_, hpc, _, _⟩ := fetchDecode_cases opc s
  · cases h.symm.trans h'
  · cases h.symm.trans h'
  · exact hpc

/-- Raising any error but UnsupportedOperation keeps a legal state legal. -/
theorem State.Inv.raise {s : State} (hs : s.Inv) {e : ErrorKind} (he : e ≠ .unsupportedOperation) :
    (s.raise e).Inv where
  mem_wf := hs.mem_wf
  pc_le := hs.pc_le
  running_no_err := nofun
  err_supported := by simpa using he

/-- Executing a fetched instruction keeps a legal state legal. -/
theorem State.Inv.executes {i : Instr} {s t : State} (hs : s.Inv) (h : Executes s i t) (hpc : s.pc ≤ 253) : t.Inv := by
  obtain ⟨hrun, herr⟩ | ⟨_, hrun, herr⟩ | rfl := h.status
  · exact ⟨h.mem_wf hs.mem_wf, h.pc_le hpc, by rw [hrun, herr]; exact hs.running_no_err, herr ▸ hs.err_supported⟩
  · exact ⟨h.mem_wf hs.mem_wf, h.pc_le hpc, by simp [hrun], herr ▸ hs.err_supported⟩
  · exact hs.raise nofun

/-- Settles O3: a step raises an error of the fetch or decode phase or executes a fetched instruction, and each keeps
the invariant. -/
theorem stepKeepsLegalStates : Obligations.StepKeepsLegalStates := by
  intro opc s t hs ht
  obtain ⟨_, ⟨e, he, rfl⟩ | ⟨i, hi, hexec⟩⟩ := stepWith_cases ht
  · exact hs.raise (fetchDecode_error_supported he)
  · exact hs.executes (exec_eq_next_iff.mp hexec) (pc_le_of_fetchDecode_ok hi)

/-- Settles O2: reset's memory is empty, and its other fields are constants. -/
theorem resetIsLegal : Obligations.ResetIsLegal where
  mem_wf := Memory.wf_nil
  pc_le := Nat.zero_le 256
  running_no_err := fun _ => rfl
  err_supported := nofun

/-! ### Output and status -/

/-- Settles O26: an error leaves the output alone, and of the instructions only PRN appends. -/
theorem outputIsAppendOnly : Obligations.OutputIsAppendOnly := by
  intro opc s t ht
  obtain ⟨_, ⟨e, _, rfl⟩ | ⟨i, hi, hexec⟩⟩ := stepWith_cases ht
  · exact .inl rfl
  · obtain hout | ⟨a, ha, rfl, hout⟩ := (exec_eq_next_iff.mp hexec).out
    · exact .inl hout
    · exact .inr ⟨a, ha, hi, hout⟩

/-- Settles O27: by the three cases of the status after execution. -/
theorem statusWrittenOnlyByHltAndErrors : Obligations.StatusWrittenOnlyByHltAndErrors := by
  intro i s
  obtain ⟨t, h⟩ := exists_executes i s
  refine ⟨t, h.exec_eq, ?_⟩
  obtain hsame | ⟨hi, hrun, herr⟩ | rfl := h.status
  · exact ⟨hsame.1 ▸ id, .inl hsame⟩
  · exact ⟨by simp [hrun], .inr (.inl ⟨hi, hrun, herr⟩)⟩
  · exact ⟨nofun, .inr (.inr ⟨_, rfl⟩)⟩

/-- A state with other values of the running flag, `ERR` and the output. -/
abbrev State.withStatusOut (s : State) (running : Bool) (err : Option ErrorKind) (out : List Byte) : State :=
  { s with running := running, err := err, out := out }

/-- From a state with another status and output an instruction executes alike: the same memory, registers and `pc`, and
the same values appended (R29, R30). -/
theorem Executes.withStatusOut {i : Instr} {s t : State} (h : Executes s i t) (running : Bool)
    (err : Option ErrorKind) (out : List Byte) :
    ∃ t', Executes (s.withStatusOut running err out) i t' ∧ t'.mem = t.mem ∧ t'.regs = t.regs ∧ t'.pc = t.pc ∧
      ∃ l, t.out = s.out ++ l ∧ t'.out = out ++ l := by
  have nil : ∃ l, s.out = s.out ++ l ∧ out = out ++ l := ⟨[], by simp⟩
  cases h with
  | raised hi => exact ⟨_, .raised hi, rfl, rfl, rfl, nil⟩
  | hlt => exact ⟨_, .hlt, rfl, rfl, rfl, nil⟩
  | ldi ha => exact ⟨_, .ldi ha, rfl, rfl, rfl, nil⟩
  | prn ha => exact ⟨_, .prn ha, rfl, rfl, rfl, _, rfl, rfl⟩
  | add ha hb => exact ⟨_, .add ha hb, rfl, rfl, rfl, nil⟩
  | mul ha hb => exact ⟨_, .mul ha hb, rfl, rfl, rfl, nil⟩
  | push ha => exact ⟨_, .push ha, rfl, rfl, rfl, nil⟩
  | pop ha => exact ⟨_, .pop ha, rfl, rfl, rfl, nil⟩
  | call ha => exact ⟨_, .call ha, rfl, rfl, rfl, nil⟩
  | ret => exact ⟨_, .ret, rfl, rfl, rfl, nil⟩

/-- Settles O28: both executions take the same case. -/
theorem noInstructionReadsStatusOrOutput : Obligations.NoInstructionReadsStatusOrOutput := by
  intro i s running err out
  obtain ⟨t, h⟩ := exists_executes i s
  obtain ⟨t', h', hrest⟩ := h.withStatusOut running err out
  exact ⟨t, t', h.exec_eq, h'.exec_eq, hrest⟩

/-! ### Registers and memory -/

/-- Settles O1: the memory is the empty list and every register of the replicated vector is 0. -/
theorem resetState : Obligations.ResetState :=
  ⟨fun addr _ => Memory.read_nil addr, fun _ h => Vector.getElem_replicate h, rfl, rfl, rfl, rfl⟩

/-- Settles O6: by the two equations of a register read. -/
theorem registerReadContract : Obligations.RegisterReadContract :=
  fun _ s => ⟨fun h => regRead_of_lt h s, fun h => regRead_of_ge h s⟩

/-- Settles O7: by the two equations of a register write; the register takes the narrowed value. -/
theorem registerWriteContract : Obligations.RegisterWriteContract := by
  refine fun i v s => ⟨fun h => ⟨_, regWrite_of_lt h v s, ?_, ?_, rfl⟩, fun h => regWrite_of_ge h v s⟩
  · rw [Vector.getElem_set_self, narrow_toNat]
  · intro r hr hne
    have : i ≠ r := by simpa [eq_comm] using hne
    exact Vector.getElem_set_ne h hr this

/-- An address that does not read as unlisted is listed with the byte it reads. -/
theorem Memory.mem_of_read_ne_unlisted {m : Memory} {addr : Nat} (h : m.read addr ≠ Memory.unlisted) :
    (addr, m.read addr) ∈ m := by
  induction m with
  | nil => exact absurd rfl h
  | cons c m ih =>
    obtain ⟨k, v⟩ := c
    rw [Memory.read_cons] at h ⊢
    split
    · next hk => simp [hk]
    · next hk => exact List.mem_cons_of_mem _ (ih (by simpa [hk] using h))

/-- In a canonical memory every entry is what its address reads. -/
theorem Memory.wf.read_of_mem {m : Memory} (h : m.wf) {c : Host.Cell} (hc : c ∈ m) : m.read c.1 = c.2 := by
  obtain ⟨hsorted, -⟩ := h
  induction m with
  | nil => cases hc
  | cons d m ih =>
    obtain ⟨hlt, hsorted⟩ := List.pairwise_cons.mp hsorted
    rw [Memory.read_cons]
    obtain rfl | hc := List.mem_cons.mp hc
    · exact if_pos rfl
    · rw [if_neg (hlt c hc).ne, ih hc hsorted]

/-- A canonical memory lists exactly the cells that do not read as unlisted. -/
theorem Memory.wf.mem_iff {m : Memory} (h : m.wf) (c : Host.Cell) :
    c ∈ m ↔ m.read c.1 = c.2 ∧ c.2 ≠ Memory.unlisted := by
  refine ⟨fun hc => ⟨h.read_of_mem hc, (h.2 c hc).2⟩, fun ⟨hread, hne⟩ => ?_⟩
  have := Memory.mem_of_read_ne_unlisted (hread ▸ hne)
  rwa [hread] at this

theorem Memory.wf.nodup {m : Memory} (h : m.wf) : m.Nodup := h.1.imp fun hlt heq => hlt.ne (congrArg Prod.fst heq)

/-- Settles O10: the two lists have the same entries, and lists sorted by address with the same entries are equal. -/
theorem equalReadsMeanEqualMemories : Obligations.EqualReadsMeanEqualMemories := by
  intro m n hm hn hread
  have hperm : m.Perm n :=
    (List.perm_ext_iff_of_nodup hm.nodup hn.nodup).mpr fun c => by rw [hm.mem_iff, hn.mem_iff, hread]
  exact hperm.eq_of_pairwise (fun _ _ _ _ hab hba => absurd hab hba.asymm) hm.1 hn.1

/-! ### The host's view -/

/-- A load writes memory alone (R212). -/
theorem load_eq_with_mem {s t : State} {image : List Byte} {offset : Nat} (h : load s image offset = .ok t) :
    ∃ mem, t = { s with mem := mem } := by
  unfold load at h
  split at h
  · cases h
  · cases h
    exact ⟨_, rfl⟩

@[simp] theorem length_view_cells (cfg : Config) (s : State) : (s.view cfg).cells.length = 256 := by simp [State.view]

theorem view_cells_getElem? (cfg : Config) (s : State) {addr : Nat} (h : addr < 256) :
    (s.view cfg).cells[addr]? = some (s.mem.read addr) := by
  simp [State.view, h]

theorem view_regs_getElem? (cfg : Config) (s : State) {r : Nat} (h : r < 8) :
    (s.view cfg).regs[r]? = some s.regs[r] := by
  simp [State.view, h]

theorem hostLoad_of_idle {h : Session} (image : List Byte) (offset : Nat) (hr : h.inRun = false) :
    hostLoad h image offset = some ((load h.core image offset).map fun t => ⟨t, false⟩) := by
  simp [hostLoad, hr]

theorem proceed_of_idle {h : Session} (opc : Opcodes) (fuel : Nat) (hr : h.inRun = false) :
    proceed opc fuel h = (h, .notCalled) := by
  simp [proceed, hr]

/-- A core before its first run stays, but for its memory, the reset state when the host loads (R34, R213). -/
theorem Session.Inv.hostLoad {h h' : Session} (hi : h.Inv) {image : List Byte} {offset : Nat}
    (hl : hostLoad h image offset = some (.ok h')) : h'.Inv := by
  intro _ hrun
  obtain ⟨hidle, hload, _⟩ := hostLoad_cases hl
  obtain ⟨mem, hcore⟩ := load_eq_with_mem hload
  rw [hcore] at hrun ⊢
  obtain ⟨_, hreset⟩ := hi hidle hrun
  exact ⟨mem, by rw [hreset]⟩

/-- While a run is in progress the session invariant asks nothing. -/
theorem Session.inv_of_inRun {h : Session} (hr : h.inRun = true) : h.Inv := fun hidle => by simp [hr] at hidle

/-- A core that has halted is no core that has never run. -/
theorem Session.inv_of_not_running {h : Session} (hr : h.core.running = false) : h.Inv := fun _ hrun => by
  simp [hr] at hrun

/-- A call of `run` begins a run (R214). -/
theorem Session.inv_of_callRun {h h' : Session} (hc : callRun h = some h') : h'.Inv := by
  cases hr : h.inRun with
  | false =>
    rw [callRun_of_idle hr] at hc
    cases hc
    exact Session.inv_of_inRun rfl
  | true =>
    rw [callRun_of_inRun hr] at hc
    cases hc

/-- A call that goes on still blocks the host, or it ends with a halted core. -/
theorem Session.Inv.proceed {h : Session} (hi : h.Inv) (opc : Opcodes) (fuel : Nat) : (proceed opc fuel h).1.Inv := by
  cases hr : h.inRun with
  | false => rwa [proceed_of_idle opc fuel hr]
  | true =>
    obtain ⟨t, ht, _⟩ | ⟨t, ht, _, hhalted⟩ := proceed_cases opc fuel hr <;> rw [ht]
    · exact Session.inv_of_inRun rfl
    · exact Session.inv_of_not_running hhalted

/-- Settles O53: each operation by its equations between runs and during one, and `Session.Inv` operation by
operation. -/
theorem inspectionReadsTheState : Obligations.InspectionReadsTheState := by
  refine ⟨fun cfg h hr => ?shown, fun h image offset hr => ⟨hostLoad_of_idle image offset hr, callRun_of_idle hr⟩,
    fun cfg h image offset hr => ⟨inspect_of_inRun cfg hr, hostLoad_of_inRun image offset hr, callRun_of_inRun hr⟩,
    fun opc fuel h hr => ?goesOn, ⟨rfl, rfl, fun _ _ => ⟨[], rfl⟩⟩,
    fun h hi => ⟨fun _ _ _ => hi.hostLoad, fun _ => Session.inv_of_callRun, hi.proceed⟩, rfl, rfl, rfl, rfl, rfl⟩
  case shown =>
    exact ⟨_, inspect_of_idle cfg hr, length_view_cells cfg h.core, fun _ => view_cells_getElem? cfg h.core,
      fun _ => view_regs_getElem? cfg h.core, rfl, rfl, rfl, rfl⟩
  case goesOn =>
    obtain ⟨t, hp, hrun, ht⟩ | ⟨t, hp, hrun, ht⟩ := proceed_cases opc fuel hr
    · exact .inl ⟨t, hrun, ht, hp⟩
    · exact .inr ⟨t, hrun, ht, hp⟩

end Sys2Proof.Machine
end

section
/-! Proofs of the memory family (spec/20_memory.md): the two accesses, who does not access memory, what a
sequence of bytes written at ascending addresses leaves to read, and that a fetch reads the memory the step before it
left. -/

namespace Sys2Proof.Machine

/-! ### The two accesses (R41, R42) -/

/-- Settles O8: by the two equations of a memory read. -/
theorem memoryReadContract : Obligations.MemoryReadContract :=
  fun _ s => ⟨fun h => memRead_of_lt (Nat.lt_succ_of_le h) s, fun h => memRead_of_ge h s⟩

/-- Settles O9: by the two equations of a memory write; the cell takes the narrowed value. -/
theorem memoryWriteContract : Obligations.MemoryWriteContract := by
  refine fun addr v s =>
    ⟨fun h => ⟨_, memWrite_of_lt (Nat.lt_succ_of_le h) v s, ?_, ?_, rfl⟩, fun h => memWrite_of_ge h v s⟩
  · rw [Memory.read_write_self, narrow_toNat]
  · exact fun b hb => Memory.read_write_of_ne s.mem _ hb

/-! ### Instructions that do not access memory (R40) -/

/-- LDI, PRN, ADD, MUL and HLT keep memory, and from a state with another memory they execute alike. -/
theorem Executes.withMem {i : Instr} {s t : State} (h : Executes s i t)
    (hi : i.mnemonic ∈ [Mnemonic.ldi, .prn, .add, .mul, .hlt]) (mem : Memory) :
    t.mem = s.mem ∧ Executes { s with mem := mem } i { t with mem := mem } := by
  cases h with
  | raised hw => exact ⟨rfl, .raised hw⟩
  | hlt => exact ⟨rfl, .hlt⟩
  | ldi ha => exact ⟨rfl, .ldi ha⟩
  | prn ha => exact ⟨rfl, .prn ha⟩
  | add ha hb => exact ⟨rfl, .add ha hb⟩
  | mul ha hb => exact ⟨rfl, .mul ha hb⟩
  | push | pop | call | ret => simp [Instr.mnemonic] at hi

/-- Settles O29: both executions take the same case. -/
theorem registerInstructionsIgnoreMemory : Obligations.RegisterInstructionsIgnoreMemory := by
  intro i hi s mem
  obtain ⟨t, h⟩ := exists_executes i s
  obtain ⟨hmem, h'⟩ := h.withMem hi mem
  exact ⟨t, h.exec_eq, hmem, h'.exec_eq⟩

/-! ### Bytes at ascending addresses (R45) -/

/-- A sequence of bytes written from `addr` on leaves every address before and behind it as it was. -/
theorem Memory.read_writeBytes_of_outside (m : Memory) {addr b : Nat} {vs : List Byte}
    (h : b < addr ∨ addr + vs.length ≤ b) : (m.writeBytes addr vs).read b = m.read b := by
  induction vs generalizing m addr with
  | nil => rfl
  | cons v vs ih =>
    simp only [List.length_cons] at h
    rw [Memory.writeBytes, ih _ (by omega), Memory.read_write_of_ne m v (by omega)]

/-- A sequence of bytes written from `addr` on is read back from there, byte by byte. -/
theorem Memory.read_writeBytes_add (m : Memory) (addr : Nat) {vs : List Byte} {k : Nat} (hk : k < vs.length) :
    (m.writeBytes addr vs).read (addr + k) = vs[k] := by
  induction vs generalizing m addr k with
  | nil => cases hk
  | cons v vs ih =>
    rw [Memory.writeBytes]
    cases k with
    | zero =>
      rw [Memory.read_writeBytes_of_outside _ (by omega), Nat.add_zero, Memory.read_write_self]
      rfl
    | succ k =>
      rw [show addr + (k + 1) = addr + 1 + k by omega]
      exact ih _ _ (Nat.lt_of_succ_lt_succ hk)

/-- Three bytes written at `addr` are the window read from there (R80). -/
theorem Memory.window_writeBytes_toBytes (m : Memory) (addr : Nat) (w : FetchWindow) :
    (⟨(m.writeBytes addr w.toBytes).read addr, (m.writeBytes addr w.toBytes).read (addr + 1),
      (m.writeBytes addr w.toBytes).read (addr + 2)⟩ : FetchWindow) = w := by
  have hread (k : Nat) (hk : k < 3) : (m.writeBytes addr w.toBytes).read (addr + k) = w.toBytes[k] :=
    m.read_writeBytes_add addr hk
  have h0 := hread 0 (by omega)
  rw [Nat.add_zero] at h0
  rw [h0, hread 1 (by omega), hread 2 (by omega)]
  rfl

/-! ### The host's placed word (R80, R85) -/

/-- Inside memory the word's three bytes go to `pc`, `pc + 1` and `pc + 2`. -/
theorem State.withFetchWord_of_le {s : State} (h : s.pc ≤ 253) (nbits w : Nat) :
    s.withFetchWord nbits w =
      { s with mem := s.mem.writeBytes s.pc (FetchWindow.ofWord (w % 2 ^ nbits)).toBytes } :=
  if_pos (show s.pc + 2 < 256 by omega)

/-- A table word's instruction is what its window decodes to under the default OPC. -/
theorem decode_of_decodeTableWord {nbits w : Nat} {i : Instr} (h : decodeTableWord nbits w = some i) :
    decode Config.specDefault.opc (FetchWindow.ofWord (w % 2 ^ nbits)) = .ok i := by
  unfold decodeTableWord at h
  cases hd : decode Config.specDefault.opc (FetchWindow.ofWord (w % 2 ^ nbits)) with
  | error e => rw [hd] at h; cases h
  | ok j => rw [hd] at h; cases h; rfl

/-- Settles O31: the window at `pc` is the word's, which decodes to the instruction, and no other cell is written. -/
theorem placedWordIsTheNextInstruction : Obligations.PlacedWordIsTheNextInstruction := by
  intro s nbits w i hr hpc hi
  rw [State.withFetchWord_of_le hpc]
  refine ⟨stepWith_of_decode hr hpc ?_, fun _ haddr => Memory.read_writeBytes_of_outside s.mem haddr, rfl⟩
  rw [Memory.window_writeBytes_toBytes]
  exact decode_of_decodeTableWord hi

/-! ### A store is seen by the next fetch (R52, R53) -/

/-- A running core whose memory holds PUSH of a register at `pc` executes it, wherever it stores: the bytes it runs are
the ones read before (R53). -/
theorem stepWith_push {opc : Opcodes} (hwf : opc.wellFormed = true) {a : Byte} {s : State} (ha : a.toNat < 8)
    (hr : s.running = true) (hpc : s.pc ≤ 253) (hop : s.mem.read s.pc = opc.push)
    (hfield : s.mem.read (s.pc + 1) = a) :
    stepWith opc s = .next
      { s with regs := s.decSp, mem := s.mem.write s.decSp[7].toNat s.decSp[a.toNat], pc := s.pc + 2 } := by
  have hd : decode opc ⟨s.mem.read s.pc, s.mem.read (s.pc + 1), s.mem.read (s.pc + 2)⟩ = .ok (.push a) := by
    rw [hop, hfield]
    exact decode_of_encode_prefix hwf ⟨[_], rfl⟩
  rw [stepWith_of_decode hr hpc hd, (Executes.push ha).exec_eq]

/-- Settles O51: the step is the PUSH, and each byte of the next fetch is read from the memory with its one store. -/
theorem storeIsSeenByNextFetch : Obligations.StoreIsSeenByNextFetch := by
  intro opc hwf a s ha hr hpc hop hfield regs seen
  refine ⟨_, stepWith_push hwf ha hr (by omega) hop hfield, rfl, ?_⟩
  rw [fetch_of_le (show s.pc + 2 ≤ 253 by omega)]
  simp only [Memory.read_write]
  rfl

end Sys2Proof.Machine
end

section
/-! Proofs of the encoding family (spec/30_encoding.md): decode and encode as inverses of each other, what the opcode
byte selects, register fields that name no register, and the image of a list of assembler lines. -/

namespace Sys2Proof

/-! ### Decode and encode (R60 to R62) -/

/-- At most three bytes stand at the front of the window read from any sequence that begins with them (R80). -/
theorem FetchWindow.isPrefix_toBytes_ofBytes {bs : List Byte} (h : bs.length ≤ 3) (rest : List Byte) :
    bs <+: (FetchWindow.ofBytes (bs ++ rest)).toBytes := by
  match bs, h with
  | [], _ => exact List.nil_prefix
  | [_], _ => exact ⟨_, rfl⟩
  | [_, _], _ => exact ⟨_, rfl⟩
  | [_, _, _], _ => exact ⟨_, rfl⟩

/-- No instruction is longer than the window (R60, R80). -/
theorem length_encode_le (opc : Opcodes) (i : Instr) : (encode opc i).length ≤ 3 :=
  (length_encode opc i).le.trans (Mnemonic.width_bounds i.mnemonic).2

/-- Settles O11: the encoding stands at the front of the window, so the window decodes to the instruction. -/
theorem decodeEncodeRoundTrip : Obligations.DecodeEncodeRoundTrip :=
  fun opc hwf i rest => decode_of_encode_prefix hwf (FetchWindow.isPrefix_toBytes_ofBytes (length_encode_le opc i) rest)

/-- What decode reads, its lookup has found by the opcode byte, and the operand bytes are the window's (R61, R62). -/
theorem decode_eq_ok_iff {opc : Opcodes} {w : FetchWindow} {i : Instr} :
    decode opc w = .ok i ↔ ∃ m, opc.lookup w.opcode = some m ∧ m.instr w.a w.b = i := by
  cases hl : opc.lookup w.opcode with
  | none => simp [decode_of_lookup_none hl]
  | some m => simp [decode_of_lookup hl]

/-- The encoding of an instruction made from two operand bytes takes as many of them as its format has (R61). -/
theorem encode_instr (opc : Opcodes) (m : Mnemonic) (a b : Byte) :
    encode opc (m.instr a b) = [opc.byteOf m, a, b].take m.width := by
  cases m <;> rfl

/-- Settles O12: the byte looked up is the opcode byte of the instruction found, and the operand bytes are kept. -/
theorem encodeOfDecodedGivesBytesRead : Obligations.EncodeOfDecodedGivesBytesRead := by
  intro opc w i hd
  obtain ⟨m, hl, rfl⟩ := decode_eq_ok_iff.mp hd
  rw [encode_instr, Instr.mnemonic_instr, Opcodes.byteOf_of_lookup hl]
  rfl

/-! ### What the opcode byte selects (R62, R66) -/

/-- The opcode byte of a mnemonic decodes to its instruction, whatever the operand bytes (R62). -/
theorem decode_byteOf {opc : Opcodes} (h : opc.wellFormed = true) (m : Mnemonic) (a b : Byte) :
    decode opc ⟨opc.byteOf m, a, b⟩ = .ok (m.instr a b) :=
  decode_of_lookup (Opcodes.lookup_byteOf h m)

/-- Decode rejects exactly the opcode bytes outside OPC, by name (R66, R82). -/
theorem decode_eq_invalidOpcode_iff {opc : Opcodes} {opcode a b : Byte} :
    decode opc ⟨opcode, a, b⟩ = .error (.invalidOpcode opcode) ↔ ∀ m, opc.byteOf m ≠ opcode := by
  rw [← Opcodes.lookup_eq_none]
  cases hl : opc.lookup opcode with
  | none => simp [decode_of_lookup_none (w := ⟨opcode, a, b⟩) hl]
  | some m => simp [decode_of_lookup (w := ⟨opcode, a, b⟩) hl]

/-- Settles O13: a byte of OPC selects its own mnemonic, and a byte outside OPC selects none. -/
theorem wholeOpcodeByteSelects : Obligations.WholeOpcodeByteSelects := by
  refine fun opc hwf opcode a b => ⟨?_, decode_eq_invalidOpcode_iff.mpr⟩
  rintro m rfl
  exact decode_byteOf hwf m a b

/-- A byte is in OPC when it is the byte of a mnemonic. -/
theorem Opcodes.mem_toList {opc : Opcodes} {b : Byte} : b ∈ opc.toList ↔ ∃ m, opc.byteOf m = b := by
  simp [Opcodes.toList_eq_map]

/-- The default OPC in ascending order (R63). -/
theorem Opcodes.specDefault_toList_perm :
    Opcodes.specDefault.toList.Perm [0x01, 0x11, 0x45, 0x46, 0x47, 0x50, 0x82, 0xA0, 0xA2] := by
  decide

/-- Settles O16: an instruction takes no byte that its format does not have, and the invalid bytes are those outside
OPC. -/
theorem ignoredAndInvalidBytes : Obligations.IgnoredAndInvalidBytes := by
  refine ⟨fun opc hwf a a' b b' => ?_, fun opcode a b => ?_⟩
  · have hsame {m : Mnemonic} {x x' y y' : Byte} (h : m.instr x y = m.instr x' y') :
        decode opc ⟨opc.byteOf m, x, y⟩ = decode opc ⟨opc.byteOf m, x', y'⟩ := by
      rw [decode_byteOf hwf, decode_byteOf hwf, h]
    exact ⟨hsame (m := .hlt) rfl, hsame (m := .ret) rfl, hsame (m := .prn) rfl, hsame (m := .push) rfl,
      hsame (m := .pop) rfl, hsame (m := .call) rfl⟩
  · rw [decode_eq_invalidOpcode_iff, ← Opcodes.specDefault_toList_perm.mem_iff, Opcodes.mem_toList, not_exists]

/-- Settles O14: each row of R61's table is the format, width and encoding of its mnemonic. -/
theorem formatsAndLengths : Obligations.FormatsAndLengths :=
  fun opc a b =>
    ⟨⟨rfl, rfl, encode_instr opc .hlt a b⟩, ⟨rfl, rfl, encode_instr opc .ldi a b⟩,
      ⟨rfl, rfl, encode_instr opc .prn a b⟩, ⟨rfl, rfl, encode_instr opc .add a b⟩,
      ⟨rfl, rfl, encode_instr opc .mul a b⟩, ⟨rfl, rfl, encode_instr opc .push a b⟩,
      ⟨rfl, rfl, encode_instr opc .pop a b⟩, ⟨rfl, rfl, encode_instr opc .call a b⟩,
      ⟨rfl, rfl, encode_instr opc .ret a b⟩⟩

/-- Settles O15: the default OPC is injective, so each word is decoded by its mnemonic's byte. -/
theorem defaultWordsDecode : Obligations.DefaultWordsDecode := by
  have hwf : Opcodes.specDefault.wellFormed = true := by decide
  exact ⟨decode_byteOf hwf .hlt _ _, decode_byteOf hwf .ldi _ _, decode_byteOf hwf .prn _ _, decode_byteOf hwf .add _ _,
    decode_byteOf hwf .mul _ _, decode_byteOf hwf .push _ _, decode_byteOf hwf .pop _ _, decode_byteOf hwf .call _ _,
    decode_byteOf hwf .ret _ _⟩

/-! ### The image of a list of lines (R68) -/

/-- An instruction line's encoding stands between the image of the lines before it and that of the lines after it. -/
theorem assemble_append_instr_cons (opc : Opcodes) (before after : List AsmLine) (i : Instr) :
    assemble opc (before ++ .instr i :: after) = assemble opc before ++ (encode opc i ++ assemble opc after) := by
  simp [assemble, AsmLine.bytes]

end Sys2Proof

namespace Sys2Proof.Machine

/-! ### Register fields (R64) -/

/-- An instruction whose fields all name registers raises nothing: `ERR` stays. -/
theorem Executes.err_of_wellFormed {i : Instr} {s t : State} (h : Executes s i t) (hi : i.wellFormed = true) :
    t.err = s.err := by
  cases h with
  | raised hbad => cases hi.symm.trans hbad
  | _ => rfl

/-- Settles O41: no field is checked at decode; a bad one raises at execute, and good ones execute with `ERR` kept. -/
theorem badRegisterFieldRaises : Obligations.BadRegisterFieldRaises := by
  refine fun i s => ⟨fun opc hwf => ?_, fun hi => exec_of_not_wellFormed hi s, fun hi => ?_⟩
  · simpa using decodeEncodeRoundTrip opc hwf i []
  · obtain ⟨t, h⟩ := exists_executes i s
    exact ⟨t, h.exec_eq, h.err_of_wellFormed hi⟩

/-! ### An assembled line in memory (R68, R212) -/

/-- A load that fits writes the image from its offset on, and nothing else (R212). -/
theorem load_eq_writeBytes {s t : State} {image : List Byte} {offset : Nat} (h : load s image offset = .ok t) :
    t = { s with mem := s.mem.writeBytes offset image } := by
  unfold load at h
  split at h <;> cases h
  rfl

/-- A part of a sequence of bytes written from `addr` on is read back at its own place in the sequence. -/
theorem Memory.read_writeBytes_part (m : Memory) (addr : Nat) (before after : List Byte) {part : List Byte} {k : Nat}
    (hk : k < part.length) :
    (m.writeBytes addr (before ++ (part ++ after))).read (addr + (before.length + k)) = part[k] := by
  rw [Memory.read_writeBytes_add m addr (by simp only [List.length_append]; omega),
    List.getElem_append_right (Nat.le_add_right _ _)]
  simp [hk]

/-- Settles O60: the loaded image holds the line's encoding at the line's address, so the window there decodes to it. -/
theorem assembledLineRunsAtItsAddress : Obligations.AssembledLineRunsAtItsAddress := by
  intro opc hwf before after i s t hl hr hpc
  obtain rfl := load_eq_writeBytes hl
  refine stepWith_of_decode hr hpc (decode_of_encode_prefix hwf (encode_prefix_fetchWindow fun k hk => ?_))
  rw [assemble_append_instr_cons]
  simpa using Memory.read_writeBytes_part s.mem 0 (assemble opc before) (assemble opc after) hk

end Sys2Proof.Machine
end

section
/-! Proofs of the cycle family (spec/40_cycle.md): fetch and decode as phases of a step, the advance of `pc`, the states
of the core, and runs, which their step budget does not change and which may never return. -/

namespace Sys2Proof.Machine

/-! ### The phases of a step (R80 to R85) -/

section
variable {opc : Opcodes} {s t : State}

/-- Inside memory the two phases are the decode of the three bytes at `pc` (R80). -/
theorem fetchDecode_of_le (h : s.pc ≤ 253) :
    fetchDecode opc s = decodePhase opc ⟨s.mem.read s.pc, s.mem.read (s.pc + 1), s.mem.read (s.pc + 2)⟩ := by
  rw [fetchDecode, fetch_of_le h, ok_bind]

/-- At the end of memory the phases end in the fetch error (R81). -/
theorem fetchDecode_of_ge (h : 254 ≤ s.pc) : fetchDecode opc s = .error .addressOutOfRange := by
  rw [fetchDecode, fetch_of_ge h, error_bind]

/-- An opcode byte outside OPC ends the decode phase in InvalidOpcode, whatever the operand bytes (R82). -/
theorem decodePhase_of_forall_ne {opcode : Byte} (h : ∀ m, opc.byteOf m ≠ opcode) (a b : Byte) :
    decodePhase opc ⟨opcode, a, b⟩ = .error .invalidOpcode := by
  rw [decodePhase, decode_eq_invalidOpcode_iff.mpr h]

/-- A running core executes the instruction that fetch and decode give (R83, R85). -/
theorem stepWith_of_fetchDecode_ok {i : Instr} (hr : s.running = true) (h : fetchDecode opc s = .ok i) :
    stepWith opc s = exec i s := by
  simp [stepWith, hr, h]

/-- A running core raises the error that fetch or decode ends in (R85). -/
theorem stepWith_of_fetchDecode_error {e : ErrorKind} (hr : s.running = true) (h : fetchDecode opc s = .error e) :
    stepWith opc s = .next (s.raise e) := by
  simp [stepWith, hr, h]

end

/-- Settles O17: by the lemma that a step executes what its three bytes decode to; the default OPC is `step`'s own. -/
theorem stepRunsTheDecodedInstruction : Obligations.StepRunsTheDecodedInstruction :=
  ⟨fun _ _ _ hr hpc hd => stepWith_of_decode hr hpc hd, fun _ => rfl⟩

/-- Settles O18: inside memory fetch gives the three bytes, and the step follows what the decode phase makes of them. -/
theorem fetchReadsThreeBytesAtPc : Obligations.FetchReadsThreeBytesAtPc := by
  refine fun opc s hr hpc => ⟨fetch_of_le hpc, ?_⟩
  rw [← fetchDecode_of_le hpc]
  cases h : fetchDecode opc s with
  | ok i => exact stepWith_of_fetchDecode_ok hr h
  | error e => exact stepWith_of_fetchDecode_error hr h

/-- Settles O19: the fetch error is raised. -/
theorem fetchPastEndRaises : Obligations.FetchPastEndRaises :=
  fun _ _ hr hpc => ⟨fetch_of_ge hpc, stepWith_of_fetchDecode_error hr (fetchDecode_of_ge hpc)⟩

/-- Settles O20: the decode phase's InvalidOpcode is raised, which keeps `pc`. -/
theorem invalidOpcodeRaises : Obligations.InvalidOpcodeRaises :=
  fun _ s hr hpc hne =>
    ⟨stepWith_of_fetchDecode_error hr ((fetchDecode_of_le hpc).trans (decodePhase_of_forall_ne hne _ _)),
      s.raise_pc .invalidOpcode⟩

/-! ### The advance of `pc` (R84) -/

/-- Settles O21: by the cases of execution, of which only the error of a bad register field keeps `pc`. -/
theorem genericAdvance : Obligations.GenericAdvance := by
  intro i s hi
  obtain ⟨t, h⟩ := exists_executes i s
  refine ⟨t, h.exec_eq, ?_⟩
  cases h with
  | raised hbad => cases hi.symm.trans hbad
  | call ha => exact fun _ => rfl
  | _ => rfl

/-! ### The states of the core (R88) -/

section
variable {s t : State}

theorem State.status_of_running (h : s.running = true) : s.status = .running := by simp [State.status, h]

theorem State.status_of_not_running (hr : s.running = false) (he : s.err = none) : s.status = .halted := by
  simp [State.status, hr, he]

@[simp] theorem State.raise_status (s : State) (e : ErrorKind) : (s.raise e).status = .haltedWithError := rfl

/-- What executing an instruction in a Running core does to the status: HLT halts, any other instruction goes on or
raises. -/
theorem Executes.transition {i : Instr} (h : Executes s i t) (hr : s.running = true) (he : s.err = none) :
    (i ≠ .hlt ∧ t.status = .running ∧ t.err = none) ∨ (i = .hlt ∧ t.status = .halted) ∨
      (i ≠ .hlt ∧ ∃ e, t = s.raise e) := by
  cases h with
  | raised hi => exact .inr (.inr ⟨(by rintro rfl; cases hi), _, rfl⟩)
  | hlt => exact .inr (.inl ⟨rfl, State.status_of_not_running rfl he⟩)
  | _ => exact .inl ⟨nofun, State.status_of_running hr, he⟩

/-- The transitions of R88 from Running: it goes on, HLT halts it, or an error is raised. -/
theorem stepWith_transition {opc : Opcodes} (h : stepWith opc s = .next t) (he : s.err = none) :
    (fetchDecode opc s ≠ .ok .hlt ∧ t.status = .running ∧ t.err = none) ∨
      (fetchDecode opc s = .ok .hlt ∧ t.status = .halted) ∨
      (fetchDecode opc s ≠ .ok .hlt ∧ ∃ e, t = s.raise e) := by
  obtain ⟨hr, ⟨e, hfd, ht⟩ | ⟨i, hfd, hexec⟩⟩ := stepWith_cases h
  · exact .inr (.inr ⟨by simp [hfd], e, ht⟩)
  · simpa [hfd] using (exec_eq_next_iff.mp hexec).transition hr he

end

/-- Settles O22: the three transitions exclude each other, by their status. -/
theorem coreStatesAndTransitions : Obligations.CoreStatesAndTransitions := by
  refine fun opc s => ⟨fun hr he => ?_, fun hr t => by simp [stepWith_of_not_running hr]⟩
  obtain ⟨t, ht⟩ := stepWith_of_running opc hr
  refine ⟨t, ht, ?_⟩
  have hraise : (∃ e, t = s.raise e) → t.status = .haltedWithError := by
    rintro ⟨e, rfl⟩
    exact s.raise_status e
  obtain ⟨hfd, hstatus, herr⟩ | ⟨hfd, hstatus⟩ | ⟨hfd, hex⟩ := stepWith_transition ht he
  · exact ⟨.inl ⟨hstatus, herr⟩, by simp [hstatus, hfd], by simp [hstatus], fun h => hraise h⟩
  · exact ⟨.inr (.inl hstatus), by simp [hstatus, hfd], by simp [hstatus], fun h => hraise h⟩
  · exact ⟨.inr (.inr (hraise hex)), by simp [hraise hex, hfd], fun _ => hex, hraise⟩

/-! ### The step budget of a run (R87, R214) -/

/-- A run whose first step leads to `t` goes on as the run from `t`. -/
theorem runWith_succ_of_next {opc : Opcodes} {s t : State} (h : stepWith opc s = .next t) (fuel : Nat) :
    runWith opc (fuel + 1) s = runWith opc fuel t := by
  simp [runWith, (stepWith_cases h).1, h]

/-- Settles O57, by induction on the steps taken: a halted core answers at once, and a running one takes the same first
step under either budget. -/
theorem runResultIsUnique : Obligations.RunResultIsUnique := by
  intro opc n k s t r h
  induction n generalizing s with
  | zero =>
    cases hr : s.running with
    | false => rwa [runWith_of_not_running opc _ hr] at h ⊢
    | true => simp [runWith, hr] at h
  | succ n ih =>
    cases hr : s.running with
    | false => rwa [runWith_of_not_running opc _ hr] at h ⊢
    | true =>
      obtain ⟨u, hu⟩ := stepWith_of_running opc hr
      rw [runWith_succ_of_next hu] at h
      rw [Nat.add_right_comm, runWith_succ_of_next hu]
      exact ih u h

/-! ### A run that never returns (R89) -/

/-- R89's loop at `pc`: PUSH of a register `a` other than SP that holds the PUSH's own address, then RET, with the byte
that PUSH stores outside the three code bytes. -/
structure PushRetLoop (opc : Opcodes) (a : Byte) (s : State) : Prop where
  field_lt : a.toNat < 7
  running  : s.running = true
  pc_le    : s.pc ≤ 251
  reg_eq   : s.regs[a.toNat].toNat = s.pc
  push_at  : s.mem.read s.pc = opc.push
  field_at : s.mem.read (s.pc + 1) = a
  ret_at   : s.mem.read (s.pc + 2) = opc.ret
  outside  : (s.sp - 1).toNat < s.pc ∨ s.pc + 2 < (s.sp - 1).toNat

/-- The state with `v` stored where the next PUSH stores. -/
abbrev State.storeBelowSp (s : State) (v : Byte) : State := { s with mem := s.mem.write (s.sp - 1).toNat v }

/-- A running core whose memory holds RET at `pc` executes it. -/
theorem stepWith_ret {opc : Opcodes} (hwf : opc.wellFormed = true) {s : State} (hr : s.running = true)
    (hpc : s.pc ≤ 253) (hop : s.mem.read s.pc = opc.ret) :
    stepWith opc s = .next
      { s with pc := (s.mem.read s.regs[7].toNat).toNat, regs := s.regs.set 7 (s.regs[7] + 1) } := by
  have hd : decode opc ⟨s.mem.read s.pc, s.mem.read (s.pc + 1), s.mem.read (s.pc + 2)⟩ = .ok .ret := by
    rw [hop]
    exact decode_byteOf hwf .ret _ _
  rw [stepWith_of_decode hr hpc hd, Executes.ret.exec_eq]

namespace PushRetLoop
variable {opc : Opcodes} {a : Byte} {s : State}

/-- A store below SP leaves the loop's three bytes alone. -/
theorem read_storeBelowSp (h : PushRetLoop opc a s) (v : Byte) {k : Nat} (hk : k ≤ 2) :
    (s.storeBelowSp v).mem.read (s.pc + k) = s.mem.read (s.pc + k) :=
  Memory.read_write_of_ne _ _ (by have := h.outside; omega)

/-- So the loop stays after it. -/
theorem storeBelowSp (h : PushRetLoop opc a s) (v : Byte) : PushRetLoop opc a (s.storeBelowSp v) where
  field_lt := h.field_lt
  running := h.running
  pc_le := h.pc_le
  reg_eq := h.reg_eq
  push_at := (h.read_storeBelowSp v (Nat.zero_le 2)).trans h.push_at
  field_at := (h.read_storeBelowSp v (Nat.le_succ 1)).trans h.field_at
  ret_at := (h.read_storeBelowSp v le_rfl).trans h.ret_at
  outside := h.outside

/-- PUSH stores the loop's own address and RET returns to it: two steps change the stored byte only. -/
theorem two_steps (h : PushRetLoop opc a s) (hwf : opc.wellFormed = true) :
    ∃ t v, stepWith opc s = .next t ∧ stepWith opc t = .next (s.storeBelowSp v) := by
  have ha := h.field_lt
  have hpc := h.pc_le
  have hsp : s.decSp[7] = s.sp - 1 := Vector.getElem_set_self _
  have hreg : s.decSp[a.toNat] = s.regs[a.toNat] := Vector.getElem_set_ne _ _ (by omega)
  have hregs : s.decSp.set 7 (s.sp - 1 + 1) = s.regs := by simp [State.sp_eq]
  refine ⟨_, s.regs[a.toNat], stepWith_push hwf (by omega) h.running (by omega) h.push_at h.field_at, ?_⟩
  rw [hsp, hreg, stepWith_ret hwf]
  · simp only [hsp, hregs, Memory.read_write_self, h.reg_eq]
  · exact h.running
  · exact Nat.add_le_add_right hpc 2
  · exact (h.read_storeBelowSp _ le_rfl).trans h.ret_at

/-- After every even number of steps only the stored byte can differ. -/
theorem runWith_even (h : PushRetLoop opc a s) (hwf : opc.wellFormed = true) (n : Nat) :
    ∃ t, runWith opc (2 * n) s = .inProgress t ∧ t.pc = s.pc ∧ t.regs = s.regs ∧ t.out = s.out ∧
      SameMemoryBut (s.sp - 1).toNat s t := by
  induction n generalizing s with
  | zero => exact ⟨s, by simp [runWith, h.running], rfl, rfl, rfl, fun _ _ => rfl⟩
  | succ n ih =>
    obtain ⟨u, v, hpush, hret⟩ := h.two_steps hwf
    obtain ⟨t, hrun, hpc, hregs, hout, hmem⟩ := ih (h.storeBelowSp v)
    refine ⟨t, ?_, hpc, hregs, hout, fun b hb => (hmem b hb).trans (Memory.read_write_of_ne _ _ hb)⟩
    rw [Nat.mul_succ, runWith_succ_of_next hpush, runWith_succ_of_next hret, hrun]

/-- The loop's run never returns: it would have returned by the next even number of steps. -/
theorem runWith_ne_returned (h : PushRetLoop opc a s) (hwf : opc.wellFormed = true) (n : Nat) (r : Option ErrorKind)
    (t : State) : runWith opc n s ≠ .returned r t := by
  intro hret
  obtain ⟨u, hrun, _⟩ := h.runWith_even hwf n
  have hret' := runResultIsUnique opc n n s t r hret
  rw [← Nat.two_mul, hrun] at hret'
  cases hret'

end PushRetLoop

/-- Settles O58: two steps lead from the loop to the loop, so no number of steps makes the run return. -/
theorem endlessRun : Obligations.EndlessRun := by
  intro opc hwf a s ha hr hpc hreg hpush hfield hret houtside
  have hloop : PushRetLoop opc a s := ⟨ha, hr, hpc, hreg, hpush, hfield, hret, houtside⟩
  have hne := hloop.runWith_ne_returned hwf
  refine ⟨fun ⟨n, t, hn⟩ => hne n none t hn, fun n => ⟨?_, hloop.runWith_even hwf n⟩⟩
  obtain ⟨t, ht, _⟩ | ⟨t, ht, _⟩ := runWith_cases opc n s
  · exact absurd ht (hne n t.err t)
  · exact ⟨t, ht⟩

end Sys2Proof.Machine
end

section
/-! Proofs of the control and move family (spec/41_control_move.md): HLT, LDI and PRN, the frame of the instructions
that do not access memory, and the text of what PRN emits. -/

namespace Sys2Proof.Machine

/-! ### Frames -/

section
variable {i : Instr} {s t : State}

theorem SameRegsBut.of_set {r : Nat} (hr : r < 8) {v : Byte} (h : t.regs = s.regs.set r v) : SameRegsBut [r] s t := by
  intro k hk hne
  have hrk : r ≠ k := fun e => hne (List.mem_singleton.mpr e.symm)
  simp only [h, Vector.getElem_set_ne hr hk hrk]

/-- An instruction that writes one register and `pc` leaves everything else unchanged. -/
theorem frame_of_exec_of_executes_set {r : Nat} (hr : r < 8) {v : Byte} {pc : Nat}
    (hset : Executes s i { s with regs := s.regs.set r v, pc := pc }) (h : exec i s = .next t) :
    SameRegsBut [r] s t ∧ SameMemory s t ∧ SameStatus s t ∧ t.out = s.out := by
  cases h.symm.trans hset.exec_eq
  exact ⟨.of_set hr rfl, fun _ => rfl, ⟨rfl, rfl⟩, rfl⟩

end

/-- Settles O45: LDI, ADD and MUL write one register and `pc`; HLT and PRN keep the registers as they are. -/
theorem frameOfRegisterInstructions : Obligations.FrameOfRegisterInstructions := by
  refine fun s t a b => ⟨fun h => ?hlt, fun ha h => frame_of_exec_of_executes_set ha (.ldi ha) h, fun ha h => ?prn,
    fun ha hb h => frame_of_exec_of_executes_set ha (.add ha hb) h,
    fun ha hb h => frame_of_exec_of_executes_set ha (.mul ha hb) h⟩
  case hlt =>
    cases h.symm.trans Executes.hlt.exec_eq
    exact ⟨fun _ _ _ => rfl, fun _ => rfl, rfl, rfl, rfl⟩
  case prn =>
    cases h.symm.trans (Executes.prn ha).exec_eq
    exact ⟨fun _ _ _ => rfl, fun _ => rfl, ⟨rfl, rfl⟩, _, rfl⟩

/-! ### HLT, LDI and PRN (R100 to R102) -/

section
variable {opc : Opcodes} {s t : State}

/-- A running core executes the instruction whose opcode byte memory holds at `pc`, with the two bytes after it. -/
theorem stepWith_of_opcode_at (hwf : opc.wellFormed = true) (hr : s.running = true) (hpc : s.pc ≤ 253) {m : Mnemonic}
    (hop : s.mem.read s.pc = opc.byteOf m) :
    stepWith opc s = exec (m.instr (s.mem.read (s.pc + 1)) (s.mem.read (s.pc + 2))) s := by
  refine stepWith_of_decode hr hpc ?_
  rw [hop]
  exact decode_byteOf hwf m _ _

/-- A run that comes to a HLT returns in the state it leaves (R100, R214). -/
theorem runWith_of_hlt_at (hwf : opc.wellFormed = true) (hr : s.running = true) (hpc : s.pc ≤ 253)
    (hop : s.mem.read s.pc = opc.hlt) (fuel : Nat) :
    runWith opc (fuel + 1) s = .returned s.err { s with running := false, pc := s.pc + 1 } := by
  have hstep : stepWith opc s = .next { s with running := false, pc := s.pc + 1 } :=
    (stepWith_of_opcode_at hwf hr hpc (m := .hlt) hop).trans Executes.hlt.exec_eq
  rw [runWith_succ_of_next hstep, runWith_of_not_running opc fuel rfl]

/-- An instruction that halts a running core and leaves no error is HLT (R100). -/
theorem Executes.eq_hlt {i : Instr} (h : Executes s i t) (hr : s.running = true) (ht : t.running = false)
    (he : t.err = none) : i = .hlt := by
  obtain ⟨hrun, _⟩ | ⟨hi, _⟩ | rfl := h.status
  · simp [hrun, hr] at ht
  · exact hi
  · cases he

end

/-- Settles O32: by the case of HLT in execution, the fetch error at the end of memory, the run that its step ends, and
the three cases of the status. -/
theorem hltRule : Obligations.HltRule := by
  refine fun opc hwf s => ⟨encode_instr opc .hlt 0 0, decode_byteOf hwf .hlt, Executes.hlt.exec_eq,
    fun hr hpc => stepWith_of_fetchDecode_error hr (fetchDecode_of_ge hpc), fun hr he hpc hop fuel => ?_,
    fun i t hr hexec ht he => (exec_eq_next_iff.mp hexec).eq_hlt hr ht he⟩
  rw [runWith_of_hlt_at hwf hr hpc hop, he]

/-- Settles O33: by the case of LDI in execution, or of a field above 7. -/
theorem ldiRule : Obligations.LdiRule :=
  fun opc hwf a b s => ⟨encode_instr opc .ldi a b, decode_byteOf hwf .ldi a b, fun ha => (Executes.ldi ha).exec_eq,
    fun ha => exec_of_not_wellFormed (i := .ldi a b) ((namesRegister_false_iff a).mpr ha) s⟩

/-- Settles O34: by the case of PRN in execution, or of a field above 7. -/
theorem prnRule : Obligations.PrnRule :=
  fun opc hwf a s => ⟨encode_instr opc .prn a 0, decode_byteOf hwf .prn a, fun ha => (Executes.prn ha).exec_eq,
    fun ha => exec_of_not_wellFormed (i := .prn a) ((namesRegister_false_iff a).mpr ha) s⟩

/-! ### The text of PRN's values (R103) -/

/-- The digits of a value of one, two or three decimal places. -/
theorem decimalDigits_cases (v : Byte) :
    (v.toNat < 10 ∧ decimalDigits v = [v.toNat]) ∨
    (10 ≤ v.toNat ∧ v.toNat < 100 ∧ decimalDigits v = [v.toNat / 10, v.toNat % 10]) ∨
    (100 ≤ v.toNat ∧ v.toNat < 256 ∧
      decimalDigits v = [v.toNat / 100, v.toNat / 10 % 10, v.toNat % 10]) := by
  have hlt := v.isLt
  by_cases h10 : v.toNat < 10
  · exact .inl ⟨h10, if_pos h10⟩
  · by_cases h100 : v.toNat < 100
    · exact .inr (.inl ⟨not_lt.mp h10, h100, (if_neg h10).trans (if_pos h100)⟩)
    · exact .inr (.inr ⟨not_lt.mp h100, hlt, (if_neg h10).trans (if_neg h100)⟩)

theorem foldl_decimalDigits (v : Byte) : (decimalDigits v).foldl (fun n d => 10 * n + d) 0 = v.toNat := by
  obtain ⟨_, h⟩ | ⟨_, _, h⟩ | ⟨_, _, h⟩ := decimalDigits_cases v <;>
    · simp only [h, List.foldl_cons, List.foldl_nil]
      omega

theorem le_nine_of_mem_decimalDigits {v : Byte} {d : Nat} (hd : d ∈ decimalDigits v) : d ≤ 9 := by
  obtain ⟨_, h⟩ | ⟨_, _, h⟩ | ⟨_, _, h⟩ := decimalDigits_cases v <;>
    · simp only [h, List.mem_cons, List.not_mem_nil, or_false] at hd
      omega

theorem length_decimalDigits_bounds (v : Byte) : 1 ≤ (decimalDigits v).length ∧ (decimalDigits v).length ≤ 3 := by
  obtain ⟨_, h⟩ | ⟨_, _, h⟩ | ⟨_, _, h⟩ := decimalDigits_cases v <;> simp [h]

/-- Only the value 0 has the leading digit 0. -/
theorem decimalDigits_eq_of_head_zero {v : Byte} (h0 : (decimalDigits v).head? = some 0) : decimalDigits v = [0] := by
  obtain ⟨_, h⟩ | ⟨_, _, h⟩ | ⟨_, _, h⟩ := decimalDigits_cases v <;>
    rw [h, List.head?_cons, Option.some_inj] at h0
  · rw [h, h0]
  · omega
  · omega

theorem outText_of_out_append {cfg : Config} {s t : State} {v : Byte} (h : t.out = s.out ++ [v]) :
    outText cfg t = outText cfg s ++ prnLine cfg v := by
  simp [outText, h]

/-- Settles O52: by the facts about the digits, and since PRN appends the one value of its register. -/
theorem prnText : Obligations.PrnText :=
  ⟨fun _ v => ⟨foldl_decimalDigits v, fun _ => le_nine_of_mem_decimalDigits, (length_decimalDigits_bounds v).1,
    (length_decimalDigits_bounds v).2, decimalDigits_eq_of_head_zero, rfl⟩,
    fun _ _ _ ha => ⟨_, (Executes.prn ha).exec_eq, outText_of_out_append rfl⟩⟩

end Sys2Proof.Machine
end

section
/-! Proofs of the arithmetic unit family (spec/42_alu.md): the unit's one write, the error that no step raises, and the two
instructions that route to the unit. -/

namespace Sys2Proof.Machine

/-! ### The unit's one write (R120, R123) -/

/-- Settles O42: the register takes the narrowed exact result, which is the sum or the product of the two bytes. -/
theorem aluApplyRule : Obligations.AluApplyRule := by
  intro op a b s ha hb
  refine ⟨_, aluApply_of_lt ha hb op s, ?_, .of_set ha rfl, rfl⟩
  rw [Vector.getElem_set_self]
  cases op with
  | add => rw [narrow_aluExact_add, BitVec.toNat_add]
  | mul => rw [narrow_aluExact_mul, BitVec.toNat_mul]

/-! ### The error of a request outside the enumeration (R122) -/

/-- The only error that executing an instruction can raise is AddressOutOfRange. -/
theorem Executes.err {i : Instr} {s t : State} (h : Executes s i t) :
    t.err = s.err ∨ t.err = some .addressOutOfRange := by
  obtain ⟨_, herr⟩ | ⟨_, _, herr⟩ | rfl := h.status
  · exact .inl herr
  · exact .inl herr
  · exact .inr rfl

/-- Settles O44: fetch and decode raise other errors, and execution raises AddressOutOfRange alone. -/
theorem unsupportedOperationIsUnreachable : Obligations.UnsupportedOperationIsUnreachable := by
  refine ⟨fun _ _ _ => rfl, fun opc s t hs ht => ?_⟩
  obtain ⟨_, ⟨e, he, rfl⟩ | ⟨i, _, hexec⟩⟩ := stepWith_cases ht
  · simpa using fetchDecode_error_supported he
  · obtain herr | herr := (exec_eq_next_iff.mp hexec).err
    · exact herr ▸ hs
    · simp [herr]

/-! ### ADD and MUL (R121, R124, R125) -/

/-- The number modulo 256 that a byte's value equals, written as a byte, is that byte (R8). -/
theorem ofNat_mod_of_toNat_eq {v : Byte} {n : Nat} (h : v.toNat = n % 256) : BitVec.ofNat 8 (n % 256) = v := by
  rw [← h, BitVec.ofNat_toNat, BitVec.setWidth_eq]

/-- Two register fields of which one is above 7 do not both name registers (R64). -/
theorem namesRegister_and_eq_false {a b : Byte} (h : 7 < a.toNat ∨ 7 < b.toNat) :
    (namesRegister a && namesRegister b) = false :=
  Bool.and_eq_false_iff.mpr (h.imp (namesRegister_false_iff a).mpr (namesRegister_false_iff b).mpr)

/-- Settles O35: by the case of ADD in execution, or of a field above 7. -/
theorem addRule : Obligations.AddRule := by
  refine fun opc hwf a b s => ⟨encode_instr opc .add a b, decode_byteOf hwf .add a b, fun ha hb => ?_,
    fun h => exec_of_not_wellFormed (i := .add a b) (namesRegister_and_eq_false h) s⟩
  rw [ofNat_mod_of_toNat_eq (BitVec.toNat_add _ _), (Executes.add ha hb).exec_eq]

/-- Settles O36: by the case of MUL in execution, or of a field above 7. -/
theorem mulRule : Obligations.MulRule := by
  refine fun opc hwf a b s => ⟨encode_instr opc .mul a b, decode_byteOf hwf .mul a b, fun ha hb => ?_,
    fun h => exec_of_not_wellFormed (i := .mul a b) (namesRegister_and_eq_false h) s⟩
  rw [ofNat_mod_of_toNat_eq (BitVec.toNat_mul _ _), (Executes.mul ha hb).exec_eq]

/-- The mnemonics that route to the unit, and the operation each asks for (R121). -/
theorem aluRequest_eq_some_iff (m : Mnemonic) (op : AluOp) :
    aluRequest m = some op ↔ (m = .add ∧ op = .add) ∨ (m = .mul ∧ op = .mul) := by
  cases m with
  | add | mul => simp [aluRequest, eq_comm]
  | _ => simp [aluRequest]

/-- Settles O43: by the routing of each mnemonic; an instruction's advance after the unit is a map over its answer. -/
theorem aluDispatch : Obligations.AluDispatch :=
  ⟨aluRequest_eq_some_iff, fun _ _ s =>
    ⟨congrArg (settle s) (bind_pure_comp _ _), congrArg (settle s) (bind_pure_comp _ _)⟩⟩

end Sys2Proof.Machine
end

section
/-! Proofs of the stack family (spec/43_stack.md): PUSH and POP, the frames of the instructions that move SP, the round
trip of PUSH and POP, and the wrap of SP. -/

namespace Sys2Proof.Machine

/-! ### PUSH and POP (R142, R143) -/

/-- Settles O37: by the case of PUSH in execution, or of a field above 7. -/
theorem pushRule : Obligations.PushRule :=
  fun opc hwf a s => ⟨encode_instr opc .push a 0, decode_byteOf hwf .push a, fun ha => (Executes.push ha).exec_eq,
    fun ha => exec_of_not_wellFormed (i := .push a) ((namesRegister_false_iff a).mpr ha) s⟩

/-- Settles O38: by the case of POP in execution, or of a field above 7. -/
theorem popRule : Obligations.PopRule :=
  fun opc hwf a s => ⟨encode_instr opc .pop a 0, decode_byteOf hwf .pop a, fun ha => (Executes.pop ha).exec_eq,
    fun ha => exec_of_not_wellFormed (i := .pop a) ((namesRegister_false_iff a).mpr ha) s⟩

/-! ### Frames -/

/-- The decremented SP is SP - 1 modulo 256 (R141). -/
theorem State.getElem_decSp_seven (s : State) : s.decSp[7] = s.sp - 1 := Vector.getElem_set_self _

section
variable {i : Instr} {s t u : State}

/-- Two changes, one after the other, leave alone the registers that neither lists. -/
theorem SameRegsBut.trans {l l' : List Nat} (h : SameRegsBut l s t) (h' : SameRegsBut l' t u) :
    SameRegsBut (l ++ l') s u := by
  intro r hr hne
  rw [List.mem_append, not_or] at hne
  exact (h' r hr hne.2).trans (h r hr hne.1)

/-- An instruction that decrements SP, stores a byte there and writes `pc` leaves everything else unchanged. -/
theorem frame_of_exec_of_executes_store {v : Byte} {pc : Nat}
    (hstore : Executes s i { s with regs := s.decSp, mem := s.mem.write s.decSp[7].toNat v, pc := pc })
    (h : exec i s = .next t) :
    SameMemoryBut s.decSp[7].toNat s t ∧ SameRegsBut [7] s t ∧ SameStatus s t ∧ t.out = s.out := by
  cases h.symm.trans hstore.exec_eq
  exact ⟨fun _ => Memory.read_write_of_ne _ _, .of_set (by decide) rfl, ⟨rfl, rfl⟩, rfl⟩

end

/-- Settles O46: POP writes its destination and then SP, RET writes SP alone, and neither writes memory. -/
theorem frameOfStackReaders : Obligations.FrameOfStackReaders := by
  refine fun s t a => ⟨fun ha h => ?pop, fun h => frame_of_exec_of_executes_set (by decide) .ret h⟩
  case pop =>
    cases h.symm.trans (Executes.pop ha).exec_eq
    have hdest : SameRegsBut [a.toNat] s { s with regs := s.regs.set a.toNat (s.mem.read s.regs[7].toNat) } :=
      .of_set ha rfl
    exact ⟨hdest.trans (.of_set (by decide) rfl), fun _ => rfl, ⟨rfl, rfl⟩, rfl⟩

/-- Settles O47: PUSH and CALL store at the decremented SP. -/
theorem frameOfStackWriters : Obligations.FrameOfStackWriters := by
  intro s t a ha h
  refine ⟨_, moveSp_neg_one s, s.getElem_decSp_seven, ?_⟩
  obtain h | h := h
  · exact frame_of_exec_of_executes_store (.push ha) h
  · exact frame_of_exec_of_executes_store (.call ha) h

/-! ### The round trip -/

/-- Popping the byte that register `a` holds after the decrement, back into `a`, restores every register: the write of `a`
changes nothing, and the increment undoes the decrement. -/
theorem State.pop_regs_decSp (s : State) {n : Nat} (hn : n < 8) :
    (s.decSp.set n s.decSp[n]).set 7 ((s.decSp.set n s.decSp[n])[7] + 1) = s.regs := by
  rw [Vector.set_getElem_self, s.getElem_decSp_seven, State.sp_eq]
  simp

/-- Settles O48: POP reads the cell that PUSH has written, at the same SP. -/
theorem pushThenPopRestores : Obligations.PushThenPopRestores := by
  refine fun a s ha => ⟨_, _, (Executes.push ha).exec_eq, (Executes.pop ha).exec_eq, ?regs, rfl, ⟨rfl, rfl⟩, rfl,
    ?cell, ?others⟩
  case regs =>
    simp only [Memory.read_write_self]
    exact s.pop_regs_decSp ha
  case cell => exact s.getElem_decSp_seven ▸ Memory.read_write_self ..
  case others => exact fun b hb => Memory.read_write_of_ne _ _ (s.getElem_decSp_seven ▸ hb)

/-! ### SP modulo 256 (R140, R141) -/

/-- A move of SP leaves there the exact sum narrowed to a byte (R141). -/
theorem moveSp_sp {d : Int} {s t : State} (h : moveSp d s = .ok t) : t.sp = narrow ((s.sp.toNat : Int) + d) := by
  cases (moveSp_eq d s).symm.trans h
  exact Vector.getElem_set_self _

/-- Settles O49: a move of SP is a register write, which reduces modulo 256; reset's SP is 0. -/
theorem stackPointerWraps : Obligations.StackPointerWraps := by
  refine ⟨fun d s => ⟨_, moveSp_eq d s, ?_⟩, fun s t hs h => ?_, fun s t hs h => ?_, fun m a ha => ?_⟩
  · rw [moveSp_sp (moveSp_eq d s), narrow_toNat]
  · rw [moveSp_sp h, narrow_toNat_sub_one, hs]
    rfl
  · rw [moveSp_sp h, narrow_toNat_add_one, hs]
    rfl
  · exact ⟨_, (Executes.push ha).exec_eq, State.getElem_decSp_seven _, Memory.read_write_self ..⟩

end Sys2Proof.Machine
end

section
/-! Proofs of the call and return family (spec/44_call_return.md): CALL and RET, and the return to the byte after the
CALL. -/

namespace Sys2Proof.Machine

/-! ### The round trip (R162) -/

/-- RET jumps to the byte in the cell at SP, and then increments SP (R161). -/
theorem exec_ret_pc_sp (s : State) :
    ∃ t, exec .ret s = .next t ∧ t.pc = (s.mem.read s.sp.toNat).toNat ∧ t.sp = s.sp + 1 :=
  ⟨_, Executes.ret.exec_eq, rfl, Vector.getElem_set_self _⟩

/-- A return address up to 255 is stored untruncated. -/
theorem Memory.toNat_read_write_ofNat (m : Memory) (addr : Nat) {n : Nat} (hn : n < 256) :
    ((m.write addr (BitVec.ofNat 8 n)).read addr).toNat = n := by
  rw [Memory.read_write_self, BitVec.toNat_ofNat, Nat.mod_eq_of_lt hn]

/-- CALL leaves its return address in the cell at the decremented SP (R160). -/
theorem exec_call_sp_cell {a : Byte} {s : State} (ha : a.toNat < 8) (hpc : s.pc ≤ 253) :
    ∃ t, exec (.call a) s = .next t ∧ t.sp = s.sp - 1 ∧ (t.mem.read t.sp.toNat).toNat = s.pc + 2 :=
  ⟨_, (Executes.call ha).exec_eq, s.getElem_decSp_seven, Memory.toNat_read_write_ofNat _ _ (by omega)⟩

/-- Settles O50: RET reads the cell that CALL has written, at the same SP, and its increment undoes CALL's decrement. -/
theorem callThenRetReturns : Obligations.CallThenRetReturns := by
  refine ⟨fun a s ha hpc => ?call, fun s => ?ret⟩
  case call =>
    obtain ⟨t, ht, htsp, hcell⟩ := exec_call_sp_cell ha hpc
    refine ⟨t, ht, hcell, fun u husp hucell => ?_⟩
    obtain ⟨v, hv, hvpc, hvsp⟩ := exec_ret_pc_sp u
    refine ⟨v, hv, ?_, ?_⟩
    · rw [hvpc, husp, hucell, hcell]
    · rw [hvsp, husp, htsp, BitVec.sub_add_cancel]
  case ret =>
    obtain ⟨v, hv, hvpc, _⟩ := exec_ret_pc_sp s
    exact ⟨v, hv, hvpc ▸ Nat.le_of_lt_succ (BitVec.isLt _)⟩

/-! ### CALL and RET (R160, R161) -/

/-- Settles O39: by the case of CALL in execution, or of a field above 7. -/
theorem callRule : Obligations.CallRule :=
  fun opc hwf a s => ⟨encode_instr opc .call a 0, decode_byteOf hwf .call a, fun ha => (Executes.call ha).exec_eq,
    fun ha => exec_of_not_wellFormed (i := .call a) ((namesRegister_false_iff a).mpr ha) s⟩

/-- Settles O40: by the case of RET in execution, and the fetch error at the end of memory. -/
theorem retRule : Obligations.RetRule :=
  fun opc hwf _ => ⟨encode_instr opc .ret 0 0, decode_byteOf hwf .ret, Executes.ret.exec_eq,
    fun hr hpc => stepWith_of_fetchDecode_error hr (fetchDecode_of_ge hpc)⟩

end Sys2Proof.Machine
end

section
/-! Proofs of the exceptions family (spec/60_exceptions.md): what raising an error does, the state it leaves, and which
error a step raises. -/

namespace Sys2Proof.Machine

/-- Settles O23: by the fields of the raised state, and its status. -/
theorem raisingAnErrorStopsTheCore : Obligations.RaisingAnErrorStopsTheCore :=
  fun s e => ⟨s.raise_err e, s.raise_running e, s.raise_pc e, s.raise_regs e, s.raise_mem e, s.raise_out e,
    s.raise_status e⟩

section
variable {opc : Opcodes} {i : Instr} {s t : State}

/-! ### Precise errors (R188) -/

/-- An instruction that leaves an error where there was none has raised it, and has done nothing else. -/
theorem Executes.eq_raise_of_err {e : ErrorKind} (h : Executes s i t) (hs : s.err = none) (ht : t.err = some e) :
    t = s.raise e := by
  obtain ⟨_, herr⟩ | ⟨_, _, herr⟩ | rfl := h.status
  · cases (herr.trans hs).symm.trans ht
  · cases (herr.trans hs).symm.trans ht
  · cases ht
    rfl

/-! ### The order of the errors (R187) -/

/-- Three bytes in memory that do not decode make the step raise InvalidOpcode (R82). -/
theorem stepWith_of_decode_error {r : DecodeReject} (hr : s.running = true) (hpc : s.pc ≤ 253)
    (hd : decode opc ⟨s.mem.read s.pc, s.mem.read (s.pc + 1), s.mem.read (s.pc + 2)⟩ = .error r) :
    stepWith opc s = .next (s.raise .invalidOpcode) := by
  cases r
  exact stepWith_of_fetchDecode_error hr (by rw [fetchDecode_of_le hpc, decodePhase, hd])

/-- `ERR` after an instruction that starts without error: AddressOutOfRange exactly when a register field it uses is above
7 (R64). -/
theorem Executes.err_eq_ite (h : Executes s i t) (hs : s.err = none) :
    t.err = if i.wellFormed then none else some .addressOutOfRange := by
  cases hi : i.wellFormed with
  | true => exact (h.err_of_wellFormed hi).trans hs
  | false =>
    cases h.exec_eq.symm.trans (exec_of_not_wellFormed hi s)
    rfl

end

/-- Settles O24: an error of fetch or decode is raised in the state before the step, and so is one of execution. -/
theorem errorsArePrecise : Obligations.ErrorsArePrecise := by
  intro opc s t e hs ht hte
  obtain ⟨_, ⟨e', _, rfl⟩ | ⟨i, _, hexec⟩⟩ := stepWith_cases ht
  · cases hte
    rfl
  · exact (exec_eq_next_iff.mp hexec).eq_raise_of_err hs hte

/-- Settles O25: by the phases of the step in their order, fetch, decode and execution. -/
theorem errorPriority : Obligations.ErrorPriority := by
  intro opc s t hs ht
  have hr : s.running = true := (stepWith_cases ht).1
  by_cases hpc : 254 ≤ s.pc
  · cases ht.symm.trans (stepWith_of_fetchDecode_error hr (fetchDecode_of_ge hpc))
    rw [if_pos hpc, State.raise_err]
  · have hle : s.pc ≤ 253 := by omega
    rw [if_neg hpc]
    split
    · next hd =>
      cases ht.symm.trans (stepWith_of_decode_error hr hle hd)
      rfl
    · next hd =>
      have hexec := (stepWith_of_decode hr hle hd).symm.trans ht
      exact (exec_eq_next_iff.mp hexec).err_eq_ite hs

end Sys2Proof.Machine
end

section
/-! Proofs of the reset and hazards family (spec/70_reset_and_hazards.md): load as two equations, runs as repeated steps
from a state to a halted core, and the first fetch after reset. -/

namespace Sys2Proof

/-- No instruction has the opcode byte 0 by default (R63, R220). -/
theorem Opcodes.specDefault_byteOf_ne_zero (m : Mnemonic) : Opcodes.specDefault.byteOf m ≠ 0 := by
  cases m <;> decide

end Sys2Proof

namespace Sys2Proof.Machine

/-! ### Load (R212, R184) -/

section
variable (s : State) {image : List Byte} {offset : Nat}

theorem load_of_gt (h : 256 < offset + image.length) : load s image offset = .error .programTooLarge := if_pos h

theorem load_of_le (h : offset + image.length ≤ 256) :
    load s image offset = .ok { s with mem := s.mem.writeBytes offset image } := if_neg h.not_gt

end

/-- Settles O54: by the two equations of a load, and what bytes written at ascending addresses leave to read. -/
theorem loadContract : Obligations.LoadContract :=
  fun s _ _ => ⟨load_of_gt s,
    fun h => ⟨_, load_of_le s h, fun _ hk => s.mem.read_writeBytes_add _ hk,
      fun _ haddr => s.mem.read_writeBytes_of_outside haddr, rfl⟩, rfl⟩

/-- Settles O4: a load writes memory alone, and keeps it canonical. -/
theorem loadKeepsLegalStates : Obligations.LoadKeepsLegalStates := by
  intro s t image offset hs hl
  have hmem : t.mem.wf := load_wf hs.mem_wf hl
  obtain ⟨mem, rfl⟩ := load_eq_with_mem hl
  exact ⟨hmem, hs.pc_le, hs.running_no_err, hs.err_supported⟩

/-! ### Run (R214, R215) -/

section
variable {opc : Opcodes} {fuel : Nat} {s t : State} {r : Option ErrorKind}

/-- A run returns at a halted core, with its `ERR` (R214). -/
theorem halted_of_runWith_returned (h : runWith opc fuel s = .returned r t) : t.running = false ∧ r = t.err := by
  obtain ⟨u, hu, hr⟩ | ⟨u, hu, _⟩ := runWith_cases opc fuel s
  · cases hu.symm.trans h
    exact ⟨hr, rfl⟩
  · cases hu.symm.trans h

/-- A run that has not returned is at a running core. -/
theorem running_of_runWith_inProgress (h : runWith opc fuel s = .inProgress t) : t.running = true := by
  obtain ⟨u, hu, _⟩ | ⟨u, hu, hr⟩ := runWith_cases opc fuel s
  · cases hu.symm.trans h
  · cases hu.symm.trans h
    exact hr

/-- A running core always has a step to take. -/
theorem runWith_ne_noStep : runWith opc fuel s ≠ .noStep t := by
  obtain ⟨u, hu, _⟩ | ⟨u, hu, _⟩ := runWith_cases opc fuel s <;> simp [hu]

/-- What every step keeps, a run that returns has kept. -/
theorem of_runWith_returned {P : State → Prop} (hstep : ∀ u v, P u → stepWith opc u = .next v → P v) (hs : P s)
    (h : runWith opc fuel s = .returned r t) : P t := by
  induction fuel generalizing s with
  | zero =>
    cases hr : s.running with
    | false =>
      cases (runWith_of_not_running opc 0 hr).symm.trans h
      exact hs
    | true => simp [runWith, hr] at h
  | succ n ih =>
    cases hr : s.running with
    | false =>
      cases (runWith_of_not_running opc (n + 1) hr).symm.trans h
      exact hs
    | true =>
      obtain ⟨u, hu⟩ := stepWith_of_running opc hr
      rw [runWith_succ_of_next hu] at h
      exact ih (hstep s u hs hu) h

theorem State.status_of_err (hr : s.running = false) (he : s.err ≠ none) : s.status = .haltedWithError := by
  obtain ⟨e, he⟩ := Option.ne_none_iff_exists'.mp he
  simp [State.status, hr, he]

end

/-- Settles O55: a running core's step is the run's, and each answer of a run is at the core it names. -/
theorem runContract : Obligations.RunContract := by
  refine fun opc fuel s => ⟨fun hr => ?_, fun _ _ => halted_of_runWith_returned,
    fun _ => running_of_runWith_inProgress, fun _ => runWith_ne_noStep⟩
  obtain ⟨t, ht⟩ := stepWith_of_running opc hr
  exact ⟨t, ht, runWith_succ_of_next ht fuel⟩

/-- Settles O56: a halted core has no step, so a run of it answers at once. -/
theorem haltedCoreStaysHalted : Obligations.HaltedCoreStaysHalted :=
  fun opc fuel _ hr => ⟨stepWith_of_not_running hr, runWith_of_not_running opc fuel hr⟩

/-- Settles O5: every step keeps the invariant, and the run returns at a halted core, whose `ERR` is the result. -/
theorem runReturnsLegalHaltedStates : Obligations.RunReturnsLegalHaltedStates := by
  intro opc fuel s t r hs h
  have ht : t.Inv := of_runWith_returned (stepKeepsLegalStates opc) hs h
  obtain ⟨hr, rfl⟩ := halted_of_runWith_returned h
  exact ⟨ht, State.status_of_not_running hr, State.status_of_err hr, ht.err_supported⟩

/-! ### The entry point (R211, R220) -/

/-- Bytes written from address 0 on into fresh memory are read back, and a missing one reads as 0 (R34, R211). -/
theorem Memory.read_writeBytes_nil (vs : List Byte) (k : Nat) : (Memory.writeBytes [] 0 vs).read k = vs.getD k 0 := by
  by_cases hk : k < vs.length
  · have h := Memory.read_writeBytes_add [] 0 hk
    rw [Nat.zero_add] at h
    rw [h, List.getD_eq_getElem vs 0 hk]
  · rw [Memory.read_writeBytes_of_outside [] (by omega), Memory.read_nil, List.getD_eq_default vs 0 (not_lt.mp hk)]

/-- Settles O59: the fetch at address 0 reads the image's bytes, and fresh memory's opcode byte 0 is outside the default
OPC. -/
theorem entryPointIsAddressZero : Obligations.EntryPointIsAddressZero := by
  refine ⟨fun image himage => ⟨_, load_of_le .reset (by omega), rfl, ?_⟩,
    (invalidOpcodeRaises Opcodes.specDefault .reset rfl (Nat.zero_le 253) Opcodes.specDefault_byteOf_ne_zero).1⟩
  rw [fetch_of_le (Nat.zero_le 253)]
  simp only [State.reset, Memory.read_writeBytes_nil]
  rfl

end Sys2Proof.Machine
end
